-- ==== Sys2Proof/Word.lean ====
section
/-!
DEFINITION. The words of the block: buffer bytes, 16-bit lengths and fields, 32-bit registers, 18-bit block offsets
(00_scope.md R12, 20_memory.md R80), and the plainest arithmetic on them.
-/

namespace Sys2Proof

/-- A buffer cell (00_scope.md R12). -/
abbrev Byte := BitVec 8

/-- Identifier, sequence, checksum, lengths, CSUM offset (00_scope.md R12). -/
abbrev Half := BitVec 16

/-- A register or bus word, and the checksum accumulator (00_scope.md R12). -/
abbrev Word := BitVec 32

/-- A byte offset from P_BASE (20_memory.md R80). -/
abbrev Offset := BitVec 18

/-- The buffer a CSUM selects: the BUF bit, 0 for TXB and 1 for RXB (30_encoding.md R120). -/
inductive Buf where
  | tx
  | rx
  deriving DecidableEq, Repr

end Sys2Proof
end

