-- ==== Sys2Proof/Syntax.lean ====
section
/-!
DEFINITION. The five commands of the opcode map (30_encoding.md R125), one constructor per row of the opcode table.
An operand's type is the field that carries it (R120, R121), so a command holds nothing its word cannot hold.
-/

namespace Sys2Proof

/-- A legal command (30_encoding.md R125). -/
inductive Instr where
  /-- CSUM: Internet checksum of `len` bytes of `buf`, from CSUM_OFF (40_checksum.md R176). -/
  | csum (buf : Buf) (len : Half)
  /-- ENCODE: build one echo request in TXB (41_encode.md R200). -/
  | encode
  /-- DECODE: decode the datagram in RXB (42_decode.md R241). -/
  | decode
  /-- SETPLEN: set the filler length from the total size `t` (41_encode.md R205). -/
  | setplen (t : Half)
  /-- SEQINC: advance the sequence counter (41_encode.md R206). -/
  | seqinc
  deriving DecidableEq, Repr

end Sys2Proof
end

