-- ==== Sys2Proof/WellFormed.lean ====
section
/-!
DEFINITION. Which command words are legal, as 30_encoding.md R127 lists the illegal ones, field by field (R120).
`Instr` itself needs no check, since its operand types are the fields' widths; what can be ill-formed here is a
command WORD. The checks are written from the field list of R127 and not from the match and mask pairs of R126, which
Sys2Proof/Decode.lean follows: that the two agree on every word is a statement.
-/

namespace Sys2Proof

/-- OP, bits 3:0 of a command word (30_encoding.md R120). -/
def opField (w : Word) : BitVec 4 := w.extractLsb' 0 4

/-- BUF, bit 4 (R120). -/
def bufField (w : Word) : Bool := w.getLsbD 4

/-- RSV, bits 15:5 (R120). -/
def rsvField (w : Word) : BitVec 11 := w.extractLsb' 5 11

/-- IMM16, bits 31:16 (R120). -/
def immField (w : Word) : Half := w.extractLsb' 16 16

/-- OP is one of the five operation codes: not 0x0, not 0x6 or above (R127). -/
def opcodeOk (w : Word) : Bool := opField w != 0#4 && decide (opField w < 6#4)

/-- No RSV bit is set (R127). -/
def reservedOk (w : Word) : Bool := rsvField w == 0#11

/-- BUF = 1 only with CSUM (R127). -/
def bufOk (w : Word) : Bool := !(bufField w) || opField w == 1#4

/-- IMM16 is 0 with ENCODE, DECODE and SEQINC (R127). -/
def immOk (w : Word) : Bool :=
  immField w == 0#16 || !(opField w == 2#4 || opField w == 3#4 || opField w == 5#4)

/-- A command word that none of R127's reasons makes illegal. -/
def commandWordOk (w : Word) : Bool := opcodeOk w && reservedOk w && bufOk w && immOk w

end Sys2Proof
end

