-- ==== Sys2Proof/Decode.lean ====
section
/-!
DEFINITION. The command decoder, a total function of the 32-bit word (30_encoding.md R126), which rejects by name,
and the encoder written from the same map (R120, R125).
-/

namespace Sys2Proof

/-- Why a word is ILLEGAL (30_encoding.md R127). The block reports every one of them as Error(ILLEGAL_CMD). -/
inductive Illegal where
  | opcode        -- OP = 0x0 or OP ≥ 0x6
  | reservedBits  -- an RSV bit is set
  | bufferBit     -- BUF = 1 with an OP other than CSUM
  | immediate     -- IMM16 ≠ 0 with ENCODE, DECODE or SEQINC
  deriving DecidableEq, Repr

/-- The first reason of R127, in its order, that makes `w` illegal (log 14: which one is named when several hold). -/
def illegalReason (w : Word) : Illegal :=
  if !(opcodeOk w) then .opcode
  else if !(reservedOk w) then .reservedBits
  else if !(bufOk w) then .bufferBit
  else .immediate

/-- The BUF bit as the buffer it selects (R120). -/
def bufOfBit (b : Bool) : Buf := if b then .rx else .tx

/-- `decodeCmd` of 30_encoding.md R126, clause by clause. -/
def decodeCmd (w : Word) : Except Illegal Instr :=
  if w &&& 0x0000FFEF#32 = 0x00000001#32 then .ok (.csum (bufOfBit (bufField w)) (immField w))
  else if w = 0x00000002#32 then .ok .encode
  else if w = 0x00000003#32 then .ok .decode
  else if w &&& 0x0000FFFF#32 = 0x00000004#32 then .ok (.setplen (immField w))
  else if w = 0x00000005#32 then .ok .seqinc
  else .error (illegalReason w)

/-- A command word from its fields, RSV = 0 (R120). -/
def commandWord (imm : Half) (buf : Bool) (op : BitVec 4) : Word :=
  imm ++ 0#11 ++ (BitVec.ofBool buf) ++ op

/-- The BUF bit that selects `b` (R120). -/
def Buf.bit (b : Buf) : Bool := decide (b = .rx)

/-- The command word of a command, from the opcode map of R125. -/
def encode (i : Instr) : Word :=
  match i with
  | .csum buf len => commandWord len buf.bit 1#4
  | .encode => commandWord 0#16 false 2#4
  | .decode => commandWord 0#16 false 3#4
  | .setplen t => commandWord t false 4#4
  | .seqinc => commandWord 0#16 false 5#4

/-- The 32-bit command word whose low `nbits` bits are `w` and whose bits above them are 0. -/
def tableWord (nbits w : Nat) : Word := BitVec.ofNat 32 (w % 2 ^ nbits)

/-- What `decodeCmd` reads from an opcode-table word of `nbits` bits; `none` where it refuses. -/
def decodeTableWord (nbits w : Nat) : Option Instr :=
  match decodeCmd (tableWord nbits w) with
  | .ok i => some i
  | .error _ => none

end Sys2Proof
end

