-- ==== Sys2Proof/Config.lean ====
section
/-!
DEFINITION. What an implementation fixes (the open parameters of 00_scope.md R8 to R11) and the free values
(93_implementation_defined.md). Every opaque constant here is without a body: no proof can see its value, so a claim about
the machine holds for every one.
-/

namespace Sys2Proof

/-- The open parameters that the CFG registers show (10_state.md R49), with their legal ranges (00_scope.md R8, R10). -/
structure Params where
  /-- P_MAXDG, the platform maximum datagram size (R8). -/
  maxdg : Nat
  /-- P_RXBUF, the size of RXB (R10). -/
  rxbuf : Nat
  maxdg_ge : 49 ≤ maxdg
  maxdg_le : maxdg ≤ 65536
  rxbuf_ge : 1 ≤ rxbuf
  rxbuf_le : rxbuf ≤ 65535
  deriving DecidableEq, Repr

/-- P_TXBUF = P_MAXDG - 1, the size of TXB (00_scope.md R9). -/
def Params.txbuf (P : Params) : Nat := P.maxdg - 1

/-- P_MAXDG - 49: which legal P_MAXDG the block has (R8; log 1). -/
opaque Config.maxdgSlot : Fin 65488

/-- P_RXBUF - 1: which legal P_RXBUF the block has (R10; log 1). -/
opaque Config.rxbufSlot : Fin 65535

/-- P_BASE / 0x40000: which multiple of 0x40000 P_BASE is (R11; log 17). -/
opaque Config.baseSlot : Nat

/-- The parameters of the block at hand: any legal ones (log 1). -/
def Config.params : Params where
  maxdg := Config.maxdgSlot.val + 49
  rxbuf := Config.rxbufSlot.val + 1
  maxdg_ge := Nat.le_add_left _ _
  maxdg_le := Nat.add_le_add_right (Nat.le_of_lt_succ Config.maxdgSlot.isLt) 49
  rxbuf_ge := Nat.le_add_left _ _
  rxbuf_le := Config.rxbufSlot.isLt

/-- P_BASE, where the block's offset space starts on the bus (R11). -/
def Config.base : Nat := Config.baseSlot * 0x40000

/-- TXB[i] after the `epoch`-th reset, until something writes it (70_reset_and_hazards.md R320, U1; log 2). -/
opaque Config.txInit : (epoch i : Nat) → Byte

/-- RXB[i] after the `epoch`-th reset, until something writes it (R320, U1; log 2). -/
opaque Config.rxInit : (epoch i : Nat) → Byte

/-- CMDL after the `epoch`-th reset (R320, U9; log 3). -/
opaque Config.cmdlAtReset : (epoch : Nat) → Word

/-- The `n`-th value of `draw8()` (00_scope.md R16, 42_decode.md R240, U2; log 4). -/
opaque Config.draw8 : (n : Nat) → Byte

/-- How many host turns pass before a command launched at draw `n` is performed, where no latency is given as an input
(70_reset_and_hazards.md R335, R337, U8; log 5). -/
opaque Config.engineLatency : (n : Nat) → Nat

end Sys2Proof
end

