-- ==== Sys2Proof/Machine/Bus.lean ====
section
/-!
DEFINITION. The vocabulary of the bus and of the inputs: access widths, bus data, host accesses (20_memory.md R82 to R84,
30_encoding.md R140), the named registers (10_state.md R33), and the inputs the outside world gives the block.
-/

namespace Sys2Proof.Machine

/-- The width of a bus access (20_memory.md R83 names byte, halfword and word). -/
inductive Width where
  | byte
  | half
  | word
  deriving DecidableEq, Repr

/-- Data on the bus: what a write carries and what a read returns. -/
inductive BusData where
  | byte (v : Byte)
  | half (v : Half)
  | word (v : Word)
  deriving DecidableEq, Repr

/-- The width of an access that carries `d`. -/
def BusData.width : BusData → Width
  | .byte _ => .byte
  | .half _ => .half
  | .word _ => .word

/-- One host bus access: `MemRead(off, n)` or `MemWrite(off, n, v)` (20_memory.md R84). -/
inductive Access where
  | read (off : Offset) (w : Width)
  | write (off : Offset) (d : BusData)
  deriving DecidableEq, Repr

/-- The offset an access is made at. -/
def Access.off : Access → Offset
  | .read off _ => off
  | .write off _ => off

/-- The width an access is made with. -/
def Access.width : Access → Width
  | .read _ w => w
  | .write _ d => d.width

/-- What the outside world does next to the block. -/
inductive Input where
  /-- One host bus access (R84). -/
  | access (a : Access)
  /-- The `wait` pseudo-instruction: `rd32 STATUS`, repeated until BUSY reads 0 (30_encoding.md R141). -/
  | wait
  /-- The reset input is applied and released (70_reset_and_hazards.md R320). -/
  | reset
  deriving DecidableEq, Repr

/-- The named registers of the register map (10_state.md R33). -/
inductive Reg where
  | cmd | status | id | seq | plen | tsHi | tsLo | txLen | csumOff | csumRes | rxLen
  | rxIp | rxTc | rxIdseq | rxIcmplen | rxTsHi | rxTsLo | cfgMaxdg | cfgRxbuf
  deriving DecidableEq, Repr

end Sys2Proof.Machine
end

