-- ==== Sys2Proof/Machine/State.lean ====
section
/-!
DEFINITION. The state of the block, as plain data (10_state.md R31), the reasons a step can stop, and the state after
reset (70_reset_and_hazards.md R320).
-/

namespace Sys2Proof.Machine

/-- STATUS.ECODE (60_exceptions.md R281). Codes 6 to 15 are never produced (U5), so they are no constructor. -/
inductive ECode where
  | none         -- 0
  | illegalCmd   -- 1
  | range        -- 2
  | plenReject   -- 3
  | rxlenRange   -- 4
  | malformed    -- 5
  deriving DecidableEq, Repr

/-- STATUS without its reserved bits, which read 0 (10_state.md R35). -/
structure Status where
  busy  : Bool
  done  : Bool
  err   : Bool
  ecode : ECode
  deriving DecidableEq, Repr

/-- RX_IP without its reserved bits (10_state.md R44). -/
structure RxIp where
  hlen : Byte
  ihl  : BitVec 4
  ttl  : Byte
  deriving DecidableEq, Repr

/-- RX_TC without its reserved bits (10_state.md R45); `typ` is the field TYPE. -/
structure RxTc where
  code : Byte
  typ  : Byte
  echo : Bool
  tsv  : Bool
  deriving DecidableEq, Repr

/-- The bytes of a buffer that were written since reset: (index, byte), indexes strictly rising. A byte that was not
written has no stored value here, and the buffer's read gives its free initial value (log 2). -/
abbrev Memory := List Host.Cell

/-- The block's state: what 10_state.md R31 lists, the two hardwired registers' constants, and the model's own fields. -/
@[ext]
structure State where
  -- registers (10_state.md R33)
  status    : Status
  id        : Half
  seq       : Half
  plen      : Half
  tsHi      : Word
  tsLo      : Word
  txLen     : Half
  csumOff   : Half
  csumRes   : Half
  rxLen     : Half
  rxIp      : RxIp
  rxTc      : RxTc
  rxIdseq   : Word
  rxIcmplen : Half
  rxTsHi    : Word
  rxTsLo    : Word
  cfg       : Params  -- CFG_MAXDG and CFG_RXBUF, hardwired (R49): no step changes it (log 1)
  -- buffers (R52, R53)
  txb       : Memory
  rxb       : Memory
  -- the hidden latch (R54)
  cmdl      : Word
  -- the model's own fields: the outside world and the free choices (INVENTORY.md, State)
  program   : List Input
  reads     : List BusData
  awaiting  : Bool
  delay     : Nat
  latencies : List Nat
  draws     : Nat
  epoch     : Nat
  deriving DecidableEq, Repr

/-- Why the machine stops. Each of these is safe: the model stops where the chip goes on or where no run comes. -/
inductive Fault where
  /-- An access that breaks the width classes of 20_memory.md R82, raised by a host access (R83). Safe. -/
  | busError
  /-- A host access other than a STATUS read between a CMD write and a STATUS read with BUSY = 0
  (70_reset_and_hazards.md R335), raised by a host access. Safe. -/
  | hazard
  /-- ENCODE in a state whose PLEN makes the message longer than TXB, a byte that does not exist; no run from reset
  reaches one (10_state.md R38, 41_encode.md R203; log 12). Safe. -/
  | txbOverrun
  deriving DecidableEq, Repr

/-- Why an instruction has no meaning. -/
inductive Refusal where
  /-- An instruction that has no meaning yet, raised by its arm of exec. Safe. -/
  | notModelled (mnemonic : String)
  deriving DecidableEq, Repr

/-- STATUS after reset: BUSY, DONE, ERR and ECODE all 0 (R320). -/
def Status.reset : Status := ⟨false, false, false, .none⟩

/-- The block right after its first reset (10_state.md R33, 70_reset_and_hazards.md R320), with no input yet. -/
def State.reset : State where
  status    := Status.reset
  id        := 0
  seq       := 0
  plen      := 32
  tsHi      := 0
  tsLo      := 0
  txLen     := 0
  csumOff   := 0
  csumRes   := 0
  rxLen     := 0
  rxIp      := ⟨0, 0, 0⟩
  rxTc      := ⟨0, 0, false, false⟩
  rxIdseq   := 0
  rxIcmplen := 0
  rxTsHi    := 0
  rxTsLo    := 0
  cfg       := Config.params
  txb       := []
  rxb       := []
  cmdl      := Config.cmdlAtReset 0
  program   := []
  reads     := []
  awaiting  := false
  delay     := 0
  latencies := []
  draws     := 0
  epoch     := 0

end Sys2Proof.Machine
end

