-- ==== Sys2Proof/Machine/Flags.lean ====
section
/-!
DEFINITION. Every flag of the block (10_state.md R56): the STATUS values a command passes through, the ECHO and TSV flags
of a decoded datagram, and the words software reads them in (R35, R44, R45).
-/

namespace Sys2Proof.Machine

/-- The code held in STATUS.ECODE (60_exceptions.md R281). -/
def ecodeBits : ECode → BitVec 4
  | .none       => 0
  | .illegalCmd => 1
  | .range      => 2
  | .plenReject => 3
  | .rxlenRange => 4
  | .malformed  => 5

/-- STATUS as a CMD write leaves it: BUSY, with DONE, ERR and ECODE cleared (10_state.md R34). -/
def statusPending : Status := ⟨true, false, false, .none⟩

/-- STATUS after a command that completed (60_exceptions.md R280). -/
def statusSuccess : Status := ⟨false, true, false, .none⟩

/-- STATUS after a command that executed `raise Error(c)` (60_exceptions.md R280). -/
def statusError (c : ECode) : Status := ⟨false, true, true, c⟩

/-- The STATUS word: BUSY bit 0, DONE bit 1, ERR bit 2, ECODE bits 7:4, the rest 0 (10_state.md R35). -/
def statusWord (t : Status) : Word :=
  0#24 ++ ecodeBits t.ecode ++ 0#1 ++ BitVec.ofBool t.err ++ BitVec.ofBool t.done ++ BitVec.ofBool t.busy

/-- The RX_IP word: HLEN 7:0, IHL 11:8, TTL 23:16, the rest 0 (10_state.md R44). -/
def rxIpWord (r : RxIp) : Word := 0#8 ++ r.ttl ++ 0#4 ++ r.ihl ++ r.hlen

/-- The RX_TC word: CODE 7:0, TYPE 15:8, ECHO bit 16, TSV bit 17, the rest 0 (10_state.md R45). -/
def rxTcWord (r : RxTc) : Word := 0#14 ++ BitVec.ofBool r.tsv ++ BitVec.ofBool r.echo ++ r.typ ++ r.code

/-- ECHO: the message is an echo reply, type 0; the code is not tested (42_decode.md R246, 30_encoding.md R136). -/
def echoFlag (typ : Byte) : Bool := typ == 0#8

/-- TSV: an echo reply whose 8 timestamp bytes were received, RX_LEN - HLEN ≥ 16 (42_decode.md R246). -/
def tsvFlag (typ : Byte) (rxLen hlen : Nat) : Bool := echoFlag typ && decide ((rxLen : Int) - (hlen : Int) ≥ 16)

end Sys2Proof.Machine
end

