-- ==== Sys2Proof/Machine/Ops.lean ====
section
/-!
DEFINITION. The named operations over the state: the buffers, how a command ends (completing, and the ONE shared
operation that raises an error), how a CMD write launches a command, and the reset input.
-/

namespace Sys2Proof.Machine

/-! ### The stored bytes of a buffer -/

/-- The byte stored at index `i`, if one was written since reset. -/
def memLookup : Memory → Nat → Option Byte
  | [], _ => none
  | (a, v) :: m, i => if a = i then some v else memLookup m i

/-- Store `v` at index `i`, keeping the indexes strictly rising. -/
def memSet : Memory → Nat → Byte → Memory
  | [], i, v => [(i, v)]
  | (a, u) :: m, i, v =>
    if i < a then (i, v) :: (a, u) :: m
    else if i = a then (i, v) :: m
    else (a, u) :: memSet m i v

/-- Store `bs` at indexes `i`, `i + 1`, …. -/
def memSetMany : Memory → Nat → List Byte → Memory
  | m, _, [] => m
  | m, i, b :: bs => memSetMany (memSet m i b) (i + 1) bs

/-- Indexes strictly rising, from `lo` on and below `size`. -/
def memWfFrom (lo size : Nat) : Memory → Bool
  | [] => true
  | (a, _) :: m => decide (lo ≤ a) && decide (a < size) && memWfFrom (a + 1) size m

/-- The canonical form of a buffer of `size` bytes (log 2). -/
def Memory.wf (size : Nat) (m : Memory) : Bool := memWfFrom 0 size m

/-! ### The buffers (10_state.md R52, R53) -/

/-- TXB[i]: the byte written last, or its free value since reset (70_reset_and_hazards.md R320). -/
def txByte (s : State) (i : Nat) : Byte := (memLookup s.txb i).getD (Config.txInit s.epoch i)

/-- RXB[i], likewise. -/
def rxByte (s : State) (i : Nat) : Byte := (memLookup s.rxb i).getD (Config.rxInit s.epoch i)

/-- B[i] for the selected buffer. -/
def bufByte (b : Buf) (s : State) (i : Nat) : Byte :=
  match b with
  | .tx => txByte s i
  | .rx => rxByte s i

/-- The size of the selected buffer: P_TXBUF or P_RXBUF (00_scope.md R9, R10). -/
def bufSize (s : State) (b : Buf) : Nat :=
  match b with
  | .tx => s.cfg.txbuf
  | .rx => s.cfg.rxbuf

/-- `TXB[i] <- v`. -/
def setTx (s : State) (i : Nat) (v : Byte) : State := { s with txb := memSet s.txb i v }

/-- `RXB[i] <- v`. -/
def setRx (s : State) (i : Nat) (v : Byte) : State := { s with rxb := memSet s.rxb i v }

/-! ### How a command starts and ends -/

/-- The command completed: BUSY <- 0, DONE <- 1, ERR <- 0, ECODE <- 0 (60_exceptions.md R280). -/
def complete (s : State) : State := { s with status := statusSuccess }

/-- `raise Error(c)`: BUSY <- 0, DONE <- 1, ERR <- 1, ECODE <- c, and nothing else (60_exceptions.md R280, R282, R286).
There is no other exception entry, and no return from one (R286, R287). -/
def raise (c : ECode) (s : State) : State := { s with status := statusError c }

/-- What a CMD write of `w` does at once: latch it into CMDL, set BUSY, clear DONE, ERR and ECODE (10_state.md R34), and
open the window in which the host may only read STATUS (70_reset_and_hazards.md R335). The command is then performed
after `d` host turns. -/
def latchCommand (w : Word) (d : Nat) (s : State) : State :=
  { s with cmdl := w, status := statusPending, awaiting := true, delay := d }

/-- The CMD write (10_state.md R34) with the latency the outside world gives next, or a free one (log 5). -/
def launch (w : Word) (s : State) : State :=
  match s.latencies with
  | d :: ds => latchCommand w d { s with latencies := ds }
  | [] => latchCommand w (Config.engineLatency s.draws) { s with draws := s.draws + 1 }

/-- `w` latched and due at the very next step: what a CMD write whose command is performed at once leaves. -/
def placeCommand (w : Word) (s : State) : State := latchCommand w 0 s

/-- The reset input (70_reset_and_hazards.md R320): every register takes its reset value, a pending command is discarded,
CMDL and both buffers hold fresh unspecified values, and the CFG constants stay. The outside world's inputs and record go on (log 11). -/
def applyReset (s : State) : State :=
  { State.reset with
    cfg       := s.cfg
    cmdl      := Config.cmdlAtReset (s.epoch + 1)
    program   := s.program
    reads     := s.reads
    latencies := s.latencies
    draws     := s.draws
    epoch     := s.epoch + 1 }

end Sys2Proof.Machine
end

