-- ==== Sys2Proof/Machine/Operands.lean ====
section
/-!
DEFINITION. How commands read their operands and lay out their results: big-endian byte order (00_scope.md R14,
20_memory.md R87), the timestamp's byte mapping (10_state.md R39, R48), the echo request's bytes (30_encoding.md R130 to
R132), and the decoder's read of the receive buffer (42_decode.md R240).
-/

namespace Sys2Proof.Machine

/-! ### Byte order -/

/-- `{hi, lo}`: the big-endian 16-bit word of two bytes (R14). -/
def be16 (hi lo : Byte) : Half := hi ++ lo

/-- `{b0, b1, b2, b3}`, the byte at the lowest index most significant (R87). -/
def be32 (b0 b1 b2 b3 : Byte) : Word := b0 ++ b1 ++ b2 ++ b3

/-- Bits 15:8, the byte stored first (R131). -/
def hiByte (v : Half) : Byte := v.extractLsb' 8 8

/-- Bits 7:0, the byte stored second (R131). -/
def loByte (v : Half) : Byte := v.extractLsb' 0 8

/-! ### The echo request (30_encoding.md R130) -/

/-- TS[k] of a TS_HI and TS_LO pair, k = 0 to 7 (10_state.md R39). -/
def tsByte (tsHi tsLo : Word) (k : Nat) : Byte :=
  if k < 4 then tsHi.extractLsb' (24 - 8 * k) 8 else tsLo.extractLsb' (24 - 8 * (k - 4)) 8

/-- The filler byte `'0' + (i mod 64)` (30_encoding.md R132). -/
def fillerByte (i : Nat) : Byte := 0x30#8 + BitVec.ofNat 8 (i % 64)

/-- The 8 header bytes: type 8, code 0, the checksum field, identifier, sequence (R130, R131). -/
def requestHeader (ck id seq : Half) : List Byte :=
  [8#8, 0#8, hiByte ck, loByte ck, hiByte id, loByte id, hiByte seq, loByte seq]

/-- The 8 timestamp bytes (R131). -/
def timestampBytes (tsHi tsLo : Word) : List Byte := (List.range 8).map (tsByte tsHi tsLo)

/-- `n` filler bytes (R132). -/
def fillerBytes (n : Nat) : List Byte := (List.range n).map fillerByte

/-- The total size, 16 + PLEN (41_encode.md R203). -/
def totalSize (s : State) : Nat := 16 + s.plen.toNat

/-- The message ENCODE builds, with its checksum field still the placeholder 0 (41_encode.md R200, R201). -/
def requestBytes (s : State) : List Byte :=
  requestHeader 0 s.id s.seq ++ timestampBytes s.tsHi s.tsLo ++ fillerBytes s.plen.toNat

/-! ### The received datagram (42_decode.md R240) -/

/-- `RxPeek(i)`: a received byte, or a fresh draw at or past RX_LEN (R240). `k` numbers the reads of one DECODE, so that
every draw is its own free value (log 4). -/
def rxPeek (s : State) (i k : Nat) : Byte :=
  if i < s.rxLen.toNat then rxByte s i else Config.draw8 (s.draws + k)

/-- How many reads one DECODE makes at most: IHL, 7 header bytes, 8 timestamp bytes (42_decode.md R241). -/
def decodeReads : Nat := 16

/-- IHL: the low nibble of byte 0 (30_encoding.md R135, 42_decode.md R243). -/
def parsedIhl (s : State) : BitVec 4 := (rxPeek s 0 0).extractLsb' 0 4

/-- HLEN = IHL × 4, a number 0 to 60 (42_decode.md R243). -/
def headerLen (ihl : BitVec 4) : Nat := 4 * ihl.toNat

/-- RTS[k], the byte at HLEN + 8 + k (42_decode.md R241, R246). -/
def rtsByte (s : State) (hlen k : Nat) : Byte := rxPeek s (hlen + 8 + k) (8 + k)

end Sys2Proof.Machine
end

