-- ==== Sys2Proof/Machine/BusPort.lean ====
section
/-!
DEFINITION. The host's side of the block: the address map (20_memory.md R80, R81), the width classes (R82), the register
window (10_state.md R33 to R51), the buffer windows (20_memory.md R85), the bus primitives (R84) and one host access with
the command hazard (70_reset_and_hazards.md R335).
-/

namespace Sys2Proof.Machine

/-! ### Where the block stands on the bus (20_memory.md R80) -/

/-- The bus address of an offset. -/
def busAddress (off : Offset) : Nat := Config.base + off.toNat

/-- The offset a bus address selects, if it lies in the block's space. -/
def offsetAt (addr : Nat) : Option Offset :=
  if Config.base ≤ addr ∧ addr < Config.base + 0x40000 then some (BitVec.ofNat 18 (addr - Config.base)) else none

/-! ### Width classes (20_memory.md R82) -/

/-- The word class: offsets below 0x10000. -/
def wordClass (off : Offset) : Bool := decide (off.toNat < 0x10000)

/-- An access that R82 allows: 4 bytes at a multiple of 4 in the word class, 1 byte in the byte class. -/
def legalAccess (off : Offset) (w : Width) : Bool :=
  if wordClass off then w == .word && off.toNat % 4 == 0 else w == .byte

/-! ### The register window (10_state.md R33) -/

/-- The offset of a register (R33). -/
def regOffset : Reg → Offset
  | .cmd       => 0x000
  | .status    => 0x004
  | .id        => 0x008
  | .seq       => 0x00C
  | .plen      => 0x010
  | .tsHi      => 0x014
  | .tsLo      => 0x018
  | .txLen     => 0x01C
  | .csumOff   => 0x020
  | .csumRes   => 0x024
  | .rxLen     => 0x028
  | .rxIp      => 0x02C
  | .rxTc      => 0x030
  | .rxIdseq   => 0x034
  | .rxIcmplen => 0x038
  | .rxTsHi    => 0x03C
  | .rxTsLo    => 0x040
  | .cfgMaxdg  => 0x044
  | .cfgRxbuf  => 0x048

/-- Every named register (R33). -/
def allRegs : List Reg :=
  [.cmd, .status, .id, .seq, .plen, .tsHi, .tsLo, .txLen, .csumOff, .csumRes, .rxLen, .rxIp, .rxTc, .rxIdseq, .rxIcmplen,
    .rxTsHi, .rxTsLo, .cfgMaxdg, .cfgRxbuf]

/-- The register at an offset; none at a reserved one (R50). -/
def regAt (off : Offset) : Option Reg := allRegs.find? (fun r => regOffset r == off)

/-- What a word read of a register returns, zero-extended (R34 to R51). CMD reads 0; the two CFG registers are hardwired. -/
def regRead (s : State) : Reg → Word
  | .cmd       => 0
  | .status    => statusWord s.status
  | .id        => s.id.setWidth 32
  | .seq       => s.seq.setWidth 32
  | .plen      => s.plen.setWidth 32
  | .tsHi      => s.tsHi
  | .tsLo      => s.tsLo
  | .txLen     => s.txLen.setWidth 32
  | .csumOff   => s.csumOff.setWidth 32
  | .csumRes   => s.csumRes.setWidth 32
  | .rxLen     => s.rxLen.setWidth 32
  | .rxIp      => rxIpWord s.rxIp
  | .rxTc      => rxTcWord s.rxTc
  | .rxIdseq   => s.rxIdseq
  | .rxIcmplen => s.rxIcmplen.setWidth 32
  | .rxTsHi    => s.rxTsHi
  | .rxTsLo    => s.rxTsLo
  | .cfgMaxdg  => BitVec.ofNat 32 s.cfg.maxdg
  | .cfgRxbuf  => BitVec.ofNat 32 s.cfg.rxbuf

/-- What a word write of a register does: CMD launches a command (R34), a read-write register keeps its used bits, a write
to any other register is ignored (R51). -/
def regWrite (v : Word) (s : State) : Reg → State
  | .cmd       => launch v s
  | .id        => { s with id := v.setWidth 16 }
  | .seq       => { s with seq := v.setWidth 16 }
  | .tsHi      => { s with tsHi := v }
  | .tsLo      => { s with tsLo := v }
  | .csumOff   => { s with csumOff := v.setWidth 16 }
  | .rxLen     => { s with rxLen := v.setWidth 16 }
  | .status    => s
  | .plen      => s
  | .txLen     => s
  | .csumRes   => s
  | .rxIp      => s
  | .rxTc      => s
  | .rxIdseq   => s
  | .rxIcmplen => s
  | .rxTsHi    => s
  | .rxTsLo    => s
  | .cfgMaxdg  => s
  | .cfgRxbuf  => s

/-- A word read in the word class: the register there, or 0 at a reserved offset (R50). -/
def wordRead (s : State) (off : Offset) : Word :=
  match regAt off with
  | some r => regRead s r
  | none => 0

/-- A word write in the word class: the register there, or nothing at a reserved offset (R50). -/
def wordWrite (s : State) (off : Offset) (v : Word) : State :=
  match regAt off with
  | some r => regWrite v s r
  | none => s

/-! ### The buffer windows (20_memory.md R85) -/

/-- The buffer byte a byte-class offset reaches; none past a buffer's end and from 0x30000 up (R81, R85). -/
def windowAt (s : State) (off : Offset) : Option (Buf × Nat) :=
  let a := off.toNat
  if a < 0x10000 then none
  else if a < 0x20000 then (if a - 0x10000 < s.cfg.txbuf then some (.tx, a - 0x10000) else none)
  else if a < 0x30000 then (if a - 0x20000 < s.cfg.rxbuf then some (.rx, a - 0x20000) else none)
  else none

/-- The byte at a byte-class offset; 0 where no buffer byte is (R85). -/
def byteRead (s : State) (off : Offset) : Byte :=
  match windowAt s off with
  | some (b, i) => bufByte b s i
  | none => 0

/-- A byte write at a byte-class offset; ignored where no buffer byte is (R85). -/
def byteWrite (s : State) (off : Offset) (v : Byte) : State :=
  match windowAt s off with
  | some (.tx, i) => setTx s i v
  | some (.rx, i) => setRx s i v
  | none => s

/-! ### The bus primitives (20_memory.md R84) -/

/-- `MemRead(off, n)` (R84); an access that breaks R82 is a bus error (R83). -/
def memRead (s : State) (off : Offset) (w : Width) : Except Fault BusData :=
  if legalAccess off w then
    .ok (if wordClass off then .word (wordRead s off) else .byte (byteRead s off))
  else .error .busError

/-- `MemWrite(off, n, v)` (R84); an access that breaks R82 is a bus error and stores nothing (R83). -/
def memWrite (s : State) (off : Offset) (d : BusData) : Except Fault State :=
  if legalAccess off d.width then
    .ok (match d with
      | .word v => wordWrite s off v
      | .byte v => byteWrite s off v
      | .half _ => s)
  else .error .busError

/-! ### One host access and the command hazard (70_reset_and_hazards.md R335) -/

/-- A word read of STATUS, the only access the window allows. -/
def statusRead : Access := .read (regOffset .status) .word

/-- The window of R335: from a CMD write until the host has read STATUS with BUSY = 0 (log 6). -/
def hazardWindow (s : State) : Bool := s.status.busy || s.awaiting

/-- The host has read `d`; a STATUS read that returned BUSY = 0 closes the window (R335). -/
def noteRead (a : Access) (d : BusData) (s : State) : State :=
  { s with reads := d :: s.reads, awaiting := s.awaiting && !(a == statusRead && !s.status.busy) }

/-- The effect of a host access outside the hazard: a read is recorded, a write stored (R84, R90). -/
def performAccess (a : Access) (s : State) : Host.Outcome State Fault Refusal :=
  match a with
  | .read off w =>
    match memRead s off w with
    | .ok d => .next (noteRead a d s)
    | .error f => .fault f
  | .write off d =>
    match memWrite s off d with
    | .ok t => .next t
    | .error f => .fault f

/-- One host access: a bus error first (R83; log 7), then the command hazard (R335), then its effect. -/
def hostAccess (a : Access) (s : State) : Host.Outcome State Fault Refusal :=
  if !(legalAccess a.off a.width) then .fault .busError
  else if hazardWindow s && !(a == statusRead) then .fault .hazard
  else performAccess a s

/-- The next input of the outside world takes effect; with none left, nothing happens (R322; log 16). `wait` stays in
place while the value it reads has BUSY = 1 (30_encoding.md R141). -/
def inputStep (s : State) : Host.Outcome State Fault Refusal :=
  match s.program with
  | [] => .next s
  | .access a :: rest => hostAccess a { s with program := rest }
  | .wait :: rest => hostAccess statusRead (if s.status.busy then s else { s with program := rest })
  | .reset :: rest => .next (applyReset { s with program := rest })

end Sys2Proof.Machine
end

