-- ==== Sys2Proof/Machine/Decoder.lean ====
section
/-!
DEFINITION. The decoder: DECODE (42_decode.md).
-/

namespace Sys2Proof.Machine

/-- RX_IP.IHL and RX_IP.HLEN as parsed, TTL as given (42_decode.md R241). -/
def parsedIp (ihl : BitVec 4) (ttl : Byte) : RxIp := ⟨BitVec.ofNat 8 (headerLen ihl), ihl, ttl⟩

/-- A rejected datagram: IHL and HLEN are kept, every other result field is 0 (42_decode.md R249). -/
def rejectDatagram (ihl : BitVec 4) (s : State) : State :=
  raise .malformed
    { s with
      rxIp := parsedIp ihl 0, rxTc := ⟨0, 0, false, false⟩, rxIdseq := 0, rxIcmplen := 0, rxTsHi := 0, rxTsLo := 0 }

/-- An accepted datagram whose ICMP message starts at HLEN (42_decode.md R241, R245 to R247). The draws are numbered from
`s`, the state DECODE started in. -/
def acceptDatagram (ihl : BitVec 4) (s : State) : State :=
  let h := headerLen ihl
  let typ := rxPeek s h 1
  complete
    { s with
      rxIp := parsedIp ihl (rxPeek s 8 7)
      rxTc := ⟨rxPeek s (h + 1) 2, typ, echoFlag typ, tsvFlag typ s.rxLen.toNat h⟩
      rxIdseq := be32 (rxPeek s (h + 4) 3) (rxPeek s (h + 5) 4) (rxPeek s (h + 6) 5) (rxPeek s (h + 7) 6)
      rxIcmplen := BitVec.ofNat 16 (s.rxLen.toNat - h)
      rxTsHi := if echoFlag typ then be32 (rtsByte s h 0) (rtsByte s h 1) (rtsByte s h 2) (rtsByte s h 3) else 0
      rxTsLo := if echoFlag typ then be32 (rtsByte s h 4) (rtsByte s h 5) (rtsByte s h 6) (rtsByte s h 7) else 0 }

/-- DECODE (42_decode.md R241): RXLEN_RANGE before anything is read (R242), then MALFORMED on
fewer than 8 ICMP bytes, by integer arithmetic (R244), else the fields. -/
def decodeDatagram (s : State) : State :=
  if s.rxLen.toNat > s.cfg.rxbuf then raise .rxlenRange s
  else
    let ihl := parsedIhl s
    let t := if (s.rxLen.toNat : Int) - (headerLen ihl : Int) < 8 then rejectDatagram ihl s else acceptDatagram ihl s
    { t with draws := s.draws + decodeReads }

/-- DECODE (42_decode.md R241). -/
def execDecode (s : State) : Host.Outcome State Fault Refusal := .next (decodeDatagram s)

end Sys2Proof.Machine
end

