-- ==== Sys2Proof/Machine/Checksum.lean ====
section
/-!
DEFINITION. The checksum engine (40_checksum.md R170 to R175) and the CSUM command (R176).
-/

namespace Sys2Proof.Machine

/-- The 32-bit sum of the first `n` big-endian words of the region of `B` that starts at `off` (R170, R171, R173). -/
def wordSum (B : Nat → Byte) (off : Nat) : Nat → Word
  | 0 => 0
  | n + 1 => wordSum B off n + (be16 (B (off + 2 * n)) (B (off + 2 * n + 1))).setWidth 32

/-- The unfolded 32-bit sum of a region: its full words, and an odd trailing byte as the high byte of a last word (R170
to R173). -/
def regionSum (B : Nat → Byte) (off len : Nat) : Word :=
  if len % 2 = 1 then wordSum B off (len / 2) + (be16 (B (off + len - 1)) 0#8).setWidth 32
  else wordSum B off (len / 2)

/-- One pass of the folding loop: `sum[15:0] + sum[31:16]` (R174). -/
def foldPass (sum : Word) : Word :=
  (sum.extractLsb' 0 16).setWidth 32 + (sum.extractLsb' 16 16).setWidth 32

/-- `while sum > 0xFFFF: sum := sum[15:0] + sum[31:16]`, with at most `fuel` passes (R174; log 15). -/
def foldLoop : Nat → Word → Word
  | 0, sum => sum
  | fuel + 1, sum => if 0xFFFF#32 < sum then foldLoop fuel (foldPass sum) else sum

/-- The folded sum (R174). No 32-bit sum needs more than two passes, so four end the loop. -/
def foldSum (sum : Word) : Word := foldLoop 4 sum

/-- `Checksum(B, off, len)` (R170, R175). -/
def checksum (B : Nat → Byte) (off len : Nat) : Half := ~~~((foldSum (regionSum B off len)).extractLsb' 0 16)

/-- CSUM over a region inside the selected buffer leaves its checksum in CSUM_RES (R176). The sum is one of integers, with
no wrap. -/
def csum (buf : Buf) (len : Half) (s : State) : State :=
  if s.csumOff.toNat + len.toNat > bufSize s buf then raise .range s
  else complete { s with csumRes := checksum (bufByte buf s) s.csumOff.toNat len.toNat }

/-- CSUM (40_checksum.md R176). -/
def execCsum (buf : Buf) (len : Half) (s : State) : Host.Outcome State Fault Refusal :=
  .next (csum buf len s)

end Sys2Proof.Machine
end

