-- ==== Sys2Proof/Machine/Encoder.lean ====
section
/-!
DEFINITION. The encoder and its configuration: ENCODE, SETPLEN and SEQINC (41_encode.md).
-/

namespace Sys2Proof.Machine

/-- ENCODE's message with the checksum placeholder, in TXB[0] to TXB[n - 1] (41_encode.md R200, R201). -/
def writeRequest (s : State) : State := { s with txb := memSetMany s.txb 0 (requestBytes s) }

/-- The checksum of the whole message as `writeRequest` left it (41_encode.md R201). -/
def requestChecksum (s : State) : Half := checksum (txByte (writeRequest s)) 0 (totalSize s)

/-- ENCODE's writes (41_encode.md R200 to R204): the message, its checksum big-endian at bytes 2 and 3, TX_LEN, CSUM_RES. -/
def encodeRequest (s : State) : State :=
  complete
    { setTx (setTx (writeRequest s) 2 (hiByte (requestChecksum s))) 3 (loByte (requestChecksum s)) with
      txLen   := BitVec.ofNat 16 (totalSize s)
      csumRes := requestChecksum s }

/-- ENCODE where its message fits TXB. PLEN is in range in every state a run reaches (10_state.md R38), so the message fits
TXB (41_encode.md R203); where it is not, a byte to be written does not exist (log 12). -/
def encodeOp (s : State) : Host.Outcome State Fault Refusal :=
  if totalSize s ≤ s.cfg.txbuf then .next (encodeRequest s) else .fault .txbOverrun

/-- ENCODE (41_encode.md R200). -/
def execEncode (s : State) : Host.Outcome State Fault Refusal := encodeOp s

/-- SETPLEN: PLEN <- t - 16 exactly for 16 < t < P_MAXDG, else Error(PLEN_REJECT) (41_encode.md R205). -/
def setplen (t : Half) (s : State) : State :=
  if 16 < t.toNat ∧ t.toNat < s.cfg.maxdg then complete { s with plen := t - 16#16 } else raise .plenReject s

/-- SETPLEN (41_encode.md R205). -/
def execSetplen (t : Half) (s : State) : Host.Outcome State Fault Refusal := .next (setplen t s)

/-- SEQINC: SEQ <- (SEQ + 1) mod 2^16 (41_encode.md R206). -/
def execSeqinc (s : State) : Host.Outcome State Fault Refusal := .next (complete { s with seq := s.seq + 1#16 })

end Sys2Proof.Machine
end

