-- ==== Sys2Proof/Machine/Dispatch.lean ====
section
/-!
DEFINITION. What each command does (60_exceptions.md R280: the rule of the decoded command), one arm per constructor.
-/

namespace Sys2Proof.Machine

def exec (i : Instr) (s : State) : Host.Outcome State Fault Refusal :=
  match i with
  | .csum buf len => Sys2Proof.Machine.execCsum buf len s
  | .encode => Sys2Proof.Machine.execEncode s
  | .decode => Sys2Proof.Machine.execDecode s
  | .setplen t => Sys2Proof.Machine.execSetplen t s
  | .seqinc => Sys2Proof.Machine.execSeqinc s

end Sys2Proof.Machine
end

