-- ==== Sys2Proof/Machine/Engine.lean ====
section
/-!
DEFINITION. The engine step (60_exceptions.md R280) and who moves next (10_state.md R30, 20_memory.md R92).
-/

namespace Sys2Proof.Machine

/-- The engine step: decode CMDL and perform the command, or raise Error(ILLEGAL_CMD) (60_exceptions.md R280). -/
def engineStep (s : State) : Host.Outcome State Fault Refusal :=
  match decodeCmd s.cmdl with
  | .ok i => exec i s
  | .error _ => .next (raise .illegalCmd s)

/-- The engine step is enabled and due: BUSY = 1, and the host turns before it are used up (R280; log 5). -/
def engineDue (s : State) : Bool := s.status.busy && s.delay == 0

/-- While a command is pending, a host turn brings its engine step nearer (70_reset_and_hazards.md R337; log 5). -/
def tick (s : State) : State := if s.status.busy then { s with delay := s.delay - 1 } else s

/-- One event in the total order of 20_memory.md R92: the engine step when it is due, else the next input. -/
def advance (s : State) : Host.Outcome State Fault Refusal :=
  if engineDue s then engineStep s else inputStep (tick s)

end Sys2Proof.Machine
end

