-- ==== Sys2Proof/Machine/Step.lean ====
section
/-!
DEFINITION. One step of the block with its host: one event of the total order of 20_memory.md R92.
-/

namespace Sys2Proof.Machine

/-- One event: an engine step, a host access, or the reset input. -/
def step : State → Host.Outcome State Fault Refusal := advance

/-- `s` with the command word `w` latched and due, so that the very next step performs it: what a CMD write of `w` leaves
when the engine moves next (10_state.md R34; log 9). -/
def State.withFetchWord (s : State) (nbits w : Nat) : State := placeCommand (tableWord nbits w) s

end Sys2Proof.Machine
end

