-- ==== Sys2Proof/Machine/HostAsm.lean ====
section
/-!
DEFINITION. The host's assembly (30_encoding.md R140, R141): host instructions, the bus accesses they stand for, the
pseudo-instructions' expansions, and the notation of a bus access.
-/

namespace Sys2Proof.Machine

/-- A host instruction (R140) or pseudo-instruction (R141). -/
inductive HostInstr where
  | wr32 (r : Reg) (v : Word)
  | rd32 (r : Reg)
  | wr32At (off : Offset) (v : Word)          -- `wr32 @0xNNN, imm32`
  | rd32At (off : Offset)                     -- `rd32 @0xNNN`
  | wr8 (b : Buf) (i : Half) (v : Byte)       -- `wr8 TX[i], imm8`, `wr8 RX[i], imm8`
  | rd8 (b : Buf) (i : Half)                  -- `rd8 TX[i]`, `rd8 RX[i]`
  | csum (b : Buf) (len : Half)
  | encode
  | decode
  | setplen (t : Half)
  | seqinc
  | wait
  | wrbuf (b : Buf) (i : Half) (bs : List Byte)
  deriving DecidableEq, Repr

/-- Where a buffer's window starts (20_memory.md R81). -/
def windowBase : Buf → Nat
  | .tx => 0x10000
  | .rx => 0x20000

/-- The offset of `TX[i]` or `RX[i]` (R140). -/
def bufOffset (b : Buf) (i : Nat) : Offset := BitVec.ofNat 18 (windowBase b + i)

/-- A host instruction that stays in its window: `wrbuf` writes at most the window's 65536 indexes (20_memory.md R81), and
a raw offset is in the word class (R140). -/
def hostInstrOk : HostInstr → Bool
  | .wr32At off _ => wordClass off
  | .rd32At off => wordClass off
  | .wrbuf _ i bs => decide (i.toNat + bs.length ≤ 0x10000)
  | _ => true

/-- A CMD write (R141). -/
def cmdWrite (w : Word) : Input := .access (.write (regOffset .cmd) (.word w))

/-- The OP and BUF bits of `csum tx` and `csum rx` (R141). -/
def csumLow : Buf → Word
  | .tx => 0x01
  | .rx => 0x11

/-- The accesses of `wrbuf` from index `i` on (R141). -/
def writeBytes (b : Buf) : Nat → List Byte → List Input
  | _, [] => []
  | i, v :: vs => .access (.write (bufOffset b i) (.byte v)) :: writeBytes b (i + 1) vs

/-- The bus accesses a host instruction stands for (R140, R141). -/
def assemble : HostInstr → List Input
  | .wr32 r v => [.access (.write (regOffset r) (.word v))]
  | .rd32 r => [.access (.read (regOffset r) .word)]
  | .wr32At off v => [.access (.write off (.word v))]
  | .rd32At off => [.access (.read off .word)]
  | .wr8 b i v => [.access (.write (bufOffset b i.toNat) (.byte v))]
  | .rd8 b i => [.access (.read (bufOffset b i.toNat) .byte)]
  | .csum b len => [cmdWrite (len.setWidth 32 <<< 16 ||| csumLow b)]
  | .encode => [cmdWrite 0x00000002]
  | .decode => [cmdWrite 0x00000003]
  | .setplen t => [cmdWrite (t.setWidth 32 <<< 16 ||| 0x04)]
  | .seqinc => [cmdWrite 0x00000005]
  | .wait => [.wait]
  | .wrbuf b i bs => writeBytes b i.toNat bs

/-- A host program, handed to the block's host after what it has still to do (log 9). -/
def loadProgram (p : List HostInstr) (s : State) : State := { s with program := s.program ++ p.flatMap assemble }

/-! ### The notation of a bus access (R140): `W4 0x00008 0x00001234`, `R1 0x10002` -/

/-- The last `n` hexadecimal digits of a number. -/
def hexDigits : Nat → Nat → List Char
  | 0, _ => []
  | n + 1, v => hexDigits n (v / 16) ++ [Char.ofNat (if v % 16 < 10 then 48 + v % 16 else 55 + v % 16)]

/-- The number of bytes of a width (R84, R140). -/
def widthChar : Width → Char
  | .byte => '1'
  | .half => '2'
  | .word => '4'

/-- The data of a write, in the digits of its width. -/
def dataDigits : BusData → List Char
  | .byte v => hexDigits 2 v.toNat
  | .half v => hexDigits 4 v.toNat
  | .word v => hexDigits 8 v.toNat

/-- A bus access as R140 writes it. -/
def accessText : Access → List Char
  | .read off w => ['R', widthChar w, ' ', '0', 'x'] ++ hexDigits 5 off.toNat
  | .write off d =>
    ['W', widthChar d.width, ' ', '0', 'x'] ++ hexDigits 5 off.toNat ++ [' ', '0', 'x'] ++ dataDigits d

end Sys2Proof.Machine
end

