-- ==== Sys2Proof/Safety.lean ====
section
/-!
DEFINITION. What claims about the block are stated in: the invariant of every reachable state, the host's discipline
around a pending command (70_reset_and_hazards.md R335), and what a command leaves alone.
-/

namespace Sys2Proof

open Sys2Proof.Machine

/-- The next state of an outcome, if it has one. -/
def nextState? : Host.Outcome State Fault Refusal → Option State
  | .next t => some t
  | .fault _ => none
  | .refused _ => none

/-- What holds in every state the block reaches. -/
structure StateInv (s : State) : Prop where
  /-- 1 ≤ PLEN ≤ P_MAXDG - 17 (10_state.md R38). -/
  plen_pos : 1 ≤ s.plen.toNat
  plen_le : s.plen.toNat + 17 ≤ s.cfg.maxdg
  /-- The buffers hold bytes of their own indexes only, in canonical form (10_state.md R52, R53). -/
  tx_wf : Memory.wf s.cfg.txbuf s.txb = true
  rx_wf : Memory.wf s.cfg.rxbuf s.rxb = true
  /-- While a command is pending, STATUS is BUSY alone, and the host's window is open (10_state.md R34, R35). -/
  busy_pending : s.status.busy = true → s.status = statusPending ∧ s.awaiting = true
  /-- The window stays open only over a pending or a performed command (70_reset_and_hazards.md R335). -/
  window_status : s.awaiting = true → s.status.busy = true ∨ s.status.done = true
  /-- ERR says that ECODE holds a code, and only a performed command has one (10_state.md R35). -/
  err_ecode : s.status.err = true ↔ s.status.ecode ≠ .none
  err_done : s.status.err = true → s.status.done = true
  /-- HLEN = IHL × 4 (10_state.md R44). -/
  hlen_ihl : s.rxIp.hlen.toNat = 4 * s.rxIp.ihl.toNat
  /-- ECHO and TSV as 10_state.md R45 defines them. -/
  echo_typ : s.rxTc.echo = true → s.rxTc.typ = 0
  echo_len : s.rxTc.echo = true → 8 ≤ s.rxIcmplen.toNat
  tsv_iff : s.rxTc.tsv = true ↔ s.rxTc.echo = true ∧ 16 ≤ s.rxIcmplen.toNat
  /-- A datagram that is no echo reply leaves no timestamp (42_decode.md R246, R249). -/
  ts_zero : s.rxTc.echo = false → s.rxTsHi = 0 ∧ s.rxTsLo = 0
  /-- The decoded ICMP message lies inside RXB (42_decode.md R242, R247). -/
  icmp_fits : s.rxIcmplen = 0 ∨ s.rxIp.hlen.toNat + s.rxIcmplen.toNat ≤ s.cfg.rxbuf
  /-- TX_LEN is 0 or the size of a message that fits TXB (10_state.md R40, 41_encode.md R203). -/
  tx_len : s.txLen = 0 ∨ (17 ≤ s.txLen.toNat ∧ s.txLen.toNat ≤ s.cfg.txbuf)

/-- A CMD write, the access that launches a command (10_state.md R34). -/
def isCmdWrite : Access → Bool
  | .write off (.word _) => off == regOffset .cmd
  | _ => false

/-- A host that keeps the bus rules: its accesses are legal (20_memory.md R82), and from a CMD write to the next `wait`
or reset it reads STATUS only (70_reset_and_hazards.md R335). `window` says that it may be open now. -/
def disciplined : (window : Bool) → List Input → Bool
  | _, [] => true
  | _, .wait :: rest => disciplined false rest
  | _, .reset :: rest => disciplined false rest
  | true, .access a :: rest => a == statusRead && disciplined true rest
  | false, .access a :: rest => legalAccess a.off a.width && disciplined (isCmdWrite a) rest

/-- An invariant state whose host keeps the bus rules from here on. -/
def SafeState (s : State) : Prop := StateInv s ∧ disciplined (hazardWindow s) s.program = true

/-- The part of the state that is the outside world's and no command touches. -/
def sameOutside (s t : State) : Prop :=
  t.program = s.program ∧ t.reads = s.reads ∧ t.awaiting = s.awaiting ∧ t.delay = s.delay ∧
    t.latencies = s.latencies ∧ t.epoch = s.epoch ∧ t.cfg = s.cfg

/-- What only the host writes, and no command (10_state.md R36, R39, R41, R43, R53), with the latch. -/
def sameHostData (s t : State) : Prop :=
  t.id = s.id ∧ t.tsHi = s.tsHi ∧ t.tsLo = s.tsLo ∧ t.csumOff = s.csumOff ∧ t.rxLen = s.rxLen ∧ t.rxb = s.rxb ∧
    t.cmdl = s.cmdl

/-- The registers that only DECODE writes (10_state.md R44 to R48). -/
def sameDecoded (s t : State) : Prop :=
  t.rxIp = s.rxIp ∧ t.rxTc = s.rxTc ∧ t.rxIdseq = s.rxIdseq ∧ t.rxIcmplen = s.rxIcmplen ∧ t.rxTsHi = s.rxTsHi ∧
    t.rxTsLo = s.rxTsLo

end Sys2Proof
end

