-- ==== Sys2Proof/Certificates/Slice0/Obligations.lean ====
section
/-!
DEFINITION. The statements about the block, each from the spec's rules, for the provers.
-/

open Sys2Proof Sys2Proof.Machine

/-! ### Command words (30_encoding.md) -/

/-- R126: the five clauses, and ILLEGAL for every other word. -/
def Obligations.DecoderFollowsTheMap : Prop :=
  ∀ w : Word,
    (w &&& 0x0000FFEF#32 = 0x00000001#32 →
      decodeCmd w = .ok (.csum (if w.getLsbD 4 then .rx else .tx) (w.extractLsb' 16 16))) ∧
    (w = 0x00000002#32 → decodeCmd w = .ok .encode) ∧
    (w = 0x00000003#32 → decodeCmd w = .ok .decode) ∧
    (w &&& 0x0000FFFF#32 = 0x00000004#32 → decodeCmd w = .ok (.setplen (w.extractLsb' 16 16))) ∧
    (w = 0x00000005#32 → decodeCmd w = .ok .seqinc) ∧
    (w &&& 0x0000FFEF#32 ≠ 0x00000001#32 → w ≠ 0x00000002#32 → w ≠ 0x00000003#32 →
      w &&& 0x0000FFFF#32 ≠ 0x00000004#32 → w ≠ 0x00000005#32 → ∃ e, decodeCmd w = .error e)

/-- Decoding an encoded command gives it back, for every command and operand. -/
def Obligations.DecodeOfEncode : Prop :=
  ∀ i : Instr, decodeCmd (encode i) = .ok i

/-- A legal word is the encoding of the command it decodes to: no two words mean the same command. -/
def Obligations.EncodeOfDecode : Prop :=
  ∀ (w : Word) (i : Instr), decodeCmd w = .ok i → encode i = w

/-- R127: the illegal words are exactly the listed ones, and performing one raises ILLEGAL_CMD and changes nothing else. -/
def Obligations.IllegalWordsRaiseOnly : Prop :=
  ∀ w : Word,
    ((∃ e, decodeCmd w = .error e) ↔
      (w.extractLsb' 0 4 = 0#4 ∨ 6#4 ≤ w.extractLsb' 0 4 ∨ w.extractLsb' 5 11 ≠ 0#11 ∨
        (w.getLsbD 4 = true ∧ w.extractLsb' 0 4 ≠ 1#4) ∨
        (w.extractLsb' 16 16 ≠ 0#16 ∧
          (w.extractLsb' 0 4 = 2#4 ∨ w.extractLsb' 0 4 = 3#4 ∨ w.extractLsb' 0 4 = 5#4)))) ∧
    ∀ (s : State) (e : Illegal), s.cmdl = w → s.status.busy = true → s.delay = 0 → decodeCmd w = .error e →
      step s = .next { s with status := ⟨false, true, true, .illegalCmd⟩ }

/-- Words written out from the opcode map (R125) and the test vectors decode to the commands they stand for. -/
def Obligations.SpecWordsDecode : Prop :=
  decodeCmd 0x00080011#32 = .ok (.csum .rx 8) ∧ decodeCmd 0x00300001#32 = .ok (.csum .tx 48) ∧
    decodeCmd 0x00000002#32 = .ok .encode ∧ decodeCmd 0x00000003#32 = .ok .decode ∧
    decodeCmd 0x05DC0004#32 = .ok (.setplen 1500) ∧ decodeCmd 0x00000005#32 = .ok .seqinc

/-! ### The engine step (60_exceptions.md R280) -/

/-- A step whose command is due is exec of the decoded command, with nothing around it. -/
def Obligations.StepRunsDecodedCommand : Prop :=
  (∀ (s : State) (i : Instr), s.status.busy = true → s.delay = 0 → decodeCmd s.cmdl = .ok i → step s = exec i s) ∧
    (∀ (s : State) (nbits w : Nat) (i : Instr), decodeTableWord nbits w = some i →
      step (s.withFetchWord nbits w) = exec i (s.withFetchWord nbits w))

/-- A performed command leaves BUSY = 0 and DONE = 1, and ERR says that ECODE holds a code. -/
def Obligations.CommandsEndDone : Prop :=
  ∀ (i : Instr) (s t : State), exec i s = .next t →
    t.status.busy = false ∧ t.status.done = true ∧ (t.status.err = true ↔ t.status.ecode ≠ .none)

/-! ### CSUM (40_checksum.md R176) -/

/-- A region inside the selected buffer: CSUM_RES is its checksum, STATUS says success, nothing else changes. -/
def Obligations.CsumOfRegionInside : Prop :=
  ∀ (buf : Buf) (len : Half) (s : State),
    s.csumOff.toNat + len.toNat ≤ (match buf with | .tx => s.cfg.maxdg - 1 | .rx => s.cfg.rxbuf) →
      exec (.csum buf len) s =
        .next { s with
          csumRes := checksum (match buf with | .tx => txByte s | .rx => rxByte s) s.csumOff.toNat len.toNat
          status := ⟨false, true, false, .none⟩ }

/-- A region that does not lie inside the selected buffer, by the integer sum: RANGE, and nothing else changes. -/
def Obligations.CsumOutsideRaisesRange : Prop :=
  ∀ (buf : Buf) (len : Half) (s : State),
    (match buf with | .tx => s.cfg.maxdg - 1 | .rx => s.cfg.rxbuf) < s.csumOff.toNat + len.toNat →
      exec (.csum buf len) s = .next { s with status := ⟨false, true, true, .range⟩ }

/-! ### The checksum primitive (40_checksum.md R170 to R178) -/

/-- R173: the 32-bit sum is the exact sum of the words, and stays below 2^31. -/
def Obligations.AccumulatorNeverOverflows : Prop :=
  ∀ (B : Nat → Byte) (off len : Nat), len ≤ 65535 →
    (regionSum B off len).toNat =
      ((List.range (len / 2)).map fun j => 256 * (B (off + 2 * j)).toNat + (B (off + 2 * j + 1)).toNat).sum +
        (if len % 2 = 1 then 256 * (B (off + len - 1)).toNat else 0) ∧
      (regionSum B off len).toNat ≤ 0x7FFF7F01

/-- R174: at most two passes bring any 32-bit sum to 16 bits, the folding stops there, and the folded value is 0 only for
the sum 0, that is when every byte of the region is 0. -/
def Obligations.FoldingEndsInTwoPasses : Prop :=
  (∀ sum : Word,
    foldSum sum =
        (if sum ≤ 0xFFFF#32 then sum
          else if foldPass sum ≤ 0xFFFF#32 then foldPass sum else foldPass (foldPass sum)) ∧
      foldSum sum ≤ 0xFFFF#32 ∧ foldPass sum ≤ 0x1FFFE#32 ∧
      foldPass sum = (sum &&& 0xFFFF#32) + (sum >>> 16) ∧
      (foldSum sum = 0#32 ↔ sum = 0#32)) ∧
  ∀ (B : Nat → Byte) (off len : Nat), len ≤ 65535 →
    (regionSum B off len = 0#32 ↔ ∀ i, i < len → B (off + i) = 0#8)

/-- R175: the result is the complement of the folded sum: 0xFFFF exactly for an all-zero or empty region, 0 exactly when
the folded sum is 0xFFFF. -/
def Obligations.ChecksumComplementsTheFoldedSum : Prop :=
  ∀ (B : Nat → Byte) (off len : Nat), len ≤ 65535 →
    (checksum B off len).toNat = 0xFFFF - (foldSum (regionSum B off len)).toNat ∧
      (checksum B off len = 0xFFFF#16 ↔ ∀ i, i < len → B (off + i) = 0#8) ∧
      (checksum B off len = 0#16 ↔ foldSum (regionSum B off len) = 0xFFFF#32)

/-- R177: a region that holds, at an even place, its own checksum computed with that place zeroed, checksums to 0. -/
def Obligations.EmbeddedChecksumVerifies : Prop :=
  ∀ (B : Nat → Byte) (off len p : Nat), len ≤ 65535 → p % 2 = 0 → p + 1 < len →
    B (off + p) ++ B (off + p + 1) =
        checksum (fun i => if i = off + p ∨ i = off + p + 1 then 0#8 else B i) off len →
      checksum B off len = 0#16

/-- R178: equal regions have equal checksums, and the order in which a region's words stand does not matter. -/
def Obligations.ChecksumDependsOnWordsOnly : Prop :=
  (∀ (B B' : Nat → Byte) (off off' len : Nat), (∀ i, i < len → B (off + i) = B' (off' + i)) →
    checksum B off len = checksum B' off' len) ∧
  ∀ (B B' : Nat → Byte) (off off' len : Nat),
    (((List.range (len / 2)).map fun j => be16 (B (off + 2 * j)) (B (off + 2 * j + 1))).Perm
      ((List.range (len / 2)).map fun j => be16 (B' (off' + 2 * j)) (B' (off' + 2 * j + 1)))) →
    (len % 2 = 1 → B (off + len - 1) = B' (off' + len - 1)) →
      checksum B off len = checksum B' off' len

/-! ### ENCODE (41_encode.md R200 to R204) -/

/-- R130, R131, R132: the bytes of the message, its length and its checksum, for every PLEN whose message fits TXB. -/
def Obligations.EncodeBuildsTheMessage : Prop :=
  ∀ s : State, 16 + s.plen.toNat ≤ s.cfg.maxdg - 1 →
    ∃ t, exec .encode s = .next t ∧ t.status = ⟨false, true, false, .none⟩ ∧
      t.txLen.toNat = 16 + s.plen.toNat ∧
      txByte t 0 = 8#8 ∧ txByte t 1 = 0#8 ∧
      txByte t 2 ++ txByte t 3 =
        checksum (fun i => if i = 2 ∨ i = 3 then 0#8 else txByte t i) 0 (16 + s.plen.toNat) ∧
      txByte t 4 ++ txByte t 5 = s.id ∧ txByte t 6 ++ txByte t 7 = s.seq ∧
      (∀ k, k < 4 →
        txByte t (8 + k) = s.tsHi.extractLsb' (24 - 8 * k) 8 ∧
          txByte t (12 + k) = s.tsLo.extractLsb' (24 - 8 * k) 8) ∧
      (∀ i, i < s.plen.toNat → txByte t (16 + i) = BitVec.ofNat 8 (0x30 + i % 64))

/-- R202: the checksum lies big-endian at bytes 2 and 3 and in CSUM_RES, and the message verifies to 0. -/
def Obligations.EncodeStoresItsChecksum : Prop :=
  ∀ s : State, 16 + s.plen.toNat ≤ s.cfg.maxdg - 1 →
    ∃ t, exec .encode s = .next t ∧
      t.csumRes = checksum (fun i => if i = 2 ∨ i = 3 then 0#8 else txByte t i) 0 t.txLen.toNat ∧
      txByte t 2 = t.csumRes.extractLsb' 8 8 ∧ txByte t 3 = t.csumRes.extractLsb' 0 8 ∧
      checksum (txByte t) 0 t.txLen.toNat = 0#16

/-- R203: under PLEN's bounds the message has 16 + PLEN bytes, at least 17, and fits TXB. -/
def Obligations.MessageAlwaysFits : Prop :=
  ∀ s : State, 1 ≤ s.plen.toNat → s.plen.toNat ≤ s.cfg.maxdg - 17 →
    ∃ t, exec .encode s = .next t ∧ t.txLen.toNat = 8 + 8 + s.plen.toNat ∧ 17 ≤ t.txLen.toNat ∧
      t.txLen.toNat ≤ s.cfg.maxdg - 1 ∧ s.cfg.txbuf = s.cfg.maxdg - 1

/-- R204: ENCODE changes only TXB[0] to TXB[n - 1], TX_LEN, CSUM_RES and STATUS. -/
def Obligations.EncodeChangesOnlyItsMessage : Prop :=
  ∀ s : State, 16 + s.plen.toNat ≤ s.cfg.maxdg - 1 →
    ∃ t, exec .encode s = .next t ∧
      (∀ i, 16 + s.plen.toNat ≤ i → txByte t i = txByte s i) ∧
      t = { s with txb := t.txb, txLen := t.txLen, csumRes := t.csumRes, status := t.status }

/-- A second ENCODE with no change between writes the same bytes, length and checksum. -/
def Obligations.EncodeTwiceIsTheSame : Prop :=
  ∀ s t : State, exec .encode s = .next t →
    ∃ u, exec .encode t = .next u ∧ (∀ i, txByte u i = txByte t i) ∧ u.txLen = t.txLen ∧ u.csumRes = t.csumRes

/-- ENCODE's checksum is never 0xFFFF, since the first word is 0x0800. -/
def Obligations.EncodeChecksumIsNeverAllOnes : Prop :=
  ∀ s t : State, exec .encode s = .next t → t.csumRes ≠ 0xFFFF#16

/-- ENCODE stops exactly where its message would not fit TXB, which no reachable state has. -/
def Obligations.EncodeStopsOnlyPastTxb : Prop :=
  ∀ s : State,
    (exec .encode s = .fault .txbOverrun ↔ s.cfg.maxdg - 1 < 16 + s.plen.toNat) ∧
      (StateInv s → ∃ t, exec .encode s = .next t)

/-! ### SETPLEN and SEQINC (41_encode.md R205, R206) -/

/-- A total size above 16 and below P_MAXDG: PLEN <- t - 16, STATUS success, nothing else changes. -/
def Obligations.SetplenAccepts : Prop :=
  ∀ (t : Half) (s : State), 16 < t.toNat → t.toNat < s.cfg.maxdg →
    ∃ u, exec (.setplen t) s = .next u ∧ u.plen.toNat = t.toNat - 16 ∧
      u = { s with plen := u.plen, status := ⟨false, true, false, .none⟩ }

/-- Any other total size: PLEN_REJECT, and nothing else changes. -/
def Obligations.SetplenRejects : Prop :=
  ∀ (t : Half) (s : State), t.toNat ≤ 16 ∨ s.cfg.maxdg ≤ t.toNat →
    exec (.setplen t) s = .next { s with status := ⟨false, true, true, .plenReject⟩ }

/-- SEQ <- (SEQ + 1) mod 2^16, STATUS success, nothing else changes. -/
def Obligations.SeqincAdvances : Prop :=
  ∀ s : State,
    exec .seqinc s =
      .next { s with seq := BitVec.ofNat 16 ((s.seq.toNat + 1) % 65536), status := ⟨false, true, false, .none⟩ }

/-! ### DECODE (42_decode.md R240 to R251) -/

/-- R242: an RX_LEN above P_RXBUF raises RXLEN_RANGE and changes nothing else. -/
def Obligations.DecodeRefusesLongRxLen : Prop :=
  ∀ s : State, s.cfg.rxbuf < s.rxLen.toNat →
    exec .decode s = .next { s with status := ⟨false, true, true, .rxlenRange⟩ }

/-- R249: a rejected datagram keeps the parsed IHL and HLEN, zeroes every other result field, and changes nothing else; an
empty datagram is always rejected, with the low nibble of a draw of this DECODE as its IHL (draws: log 4). -/
def Obligations.DecodeRejectsShortDatagrams : Prop :=
  ∀ s : State, s.rxLen.toNat ≤ s.cfg.rxbuf →
    ((0 < s.rxLen.toNat ∧ s.rxLen.toNat < 4 * ((rxByte s 0).toNat % 16) + 8) ∨ s.rxLen.toNat = 0) →
      ∃ (ihl : BitVec 4) (d : Nat), (0 < s.rxLen.toNat → ihl = (rxByte s 0).extractLsb' 0 4) ∧
        (s.rxLen.toNat = 0 → ∃ n, s.draws ≤ n ∧ n < d ∧ ihl = (Config.draw8 n).extractLsb' 0 4) ∧
        exec .decode s =
          .next { s with
            status := ⟨false, true, true, .malformed⟩
            rxIp := ⟨BitVec.ofNat 8 (4 * ihl.toNat), ihl, 0#8⟩
            rxTc := ⟨0#8, 0#8, false, false⟩
            rxIdseq := 0#32, rxIcmplen := 0#16, rxTsHi := 0#32, rxTsLo := 0#32, draws := d }

/-- R244: DECODE accepts exactly when RX_LEN ≥ HLEN + 8, over the integers. -/
def Obligations.DecodeAcceptsExactly : Prop :=
  ∀ s : State, s.rxLen.toNat ≤ s.cfg.rxbuf →
    ∃ t, exec .decode s = .next t ∧
      (0 < s.rxLen.toNat → t.rxIp.ihl = (rxByte s 0).extractLsb' 0 4) ∧
      t.rxIp.hlen.toNat = 4 * t.rxIp.ihl.toNat ∧
      (t.status = ⟨false, true, false, .none⟩ ↔ (t.rxIp.hlen.toNat : Int) + 8 ≤ (s.rxLen.toNat : Int)) ∧
      (t.status = ⟨false, true, true, .malformed⟩ ↔ (s.rxLen.toNat : Int) - (t.rxIp.hlen.toNat : Int) < 8)

/-- R245 and R247: the fields of an accepted datagram, for every IHL. -/
def Obligations.DecodeExtractsFields : Prop :=
  ∀ (s : State) (h : Nat), h = 4 * ((rxByte s 0).toNat % 16) → h + 8 ≤ s.rxLen.toNat →
    s.rxLen.toNat ≤ s.cfg.rxbuf →
      ∃ t, exec .decode s = .next t ∧ t.status = ⟨false, true, false, .none⟩ ∧
        t.rxTc.typ = rxByte s h ∧ t.rxTc.code = rxByte s (h + 1) ∧
        t.rxIdseq = (rxByte s (h + 4) ++ rxByte s (h + 5)) ++ (rxByte s (h + 6) ++ rxByte s (h + 7)) ∧
        t.rxIcmplen.toNat = s.rxLen.toNat - h ∧
        (8 < s.rxLen.toNat → t.rxIp.ttl = rxByte s 8) ∧
        (s.rxLen.toNat ≤ 8 → h = 0 ∧ s.rxLen.toNat = 8 ∧
          ∃ n, s.draws ≤ n ∧ n < t.draws ∧ t.rxIp.ttl = Config.draw8 n)

/-- R246: an echo reply's timestamp, drawn where it was not received, each byte by a draw of its own (numbered `num k`, log
4), with ECHO and TSV; any other type is decoded without one and is no error. -/
def Obligations.DecodeExtractsTimestamp : Prop :=
  ∀ (s : State) (h : Nat), h = 4 * ((rxByte s 0).toNat % 16) → h + 8 ≤ s.rxLen.toNat →
    s.rxLen.toNat ≤ s.cfg.rxbuf →
      ∃ t, exec .decode s = .next t ∧ t.status = ⟨false, true, false, .none⟩ ∧
        t.rxTc.typ = rxByte s h ∧ t.rxTc.code = rxByte s (h + 1) ∧
        (rxByte s h = 0#8 →
          t.rxTc.echo = true ∧ (t.rxTc.tsv = true ↔ 16 ≤ s.rxLen.toNat - h) ∧
            ∃ num : Nat → Nat,
              (∀ j k, j < 8 → k < 8 → num j = num k → j = k) ∧
                (∀ k, k < 8 → s.draws ≤ num k ∧ num k < t.draws) ∧
                ∀ k, k < 8 →
                  tsByte t.rxTsHi t.rxTsLo k =
                    if h + 8 + k < s.rxLen.toNat then rxByte s (h + 8 + k) else Config.draw8 (num k)) ∧
        (rxByte s h ≠ 0#8 →
          t.rxTc.echo = false ∧ t.rxTc.tsv = false ∧ t.rxTsHi = 0#32 ∧ t.rxTsLo = 0#32)

/-- DECODE completes in every state, and changes only STATUS, the decode result registers and the draw counter, which a DECODE
that reads the buffer moves past the numbers of its 16 reads (log 4). -/
def Obligations.DecodeChangesOnlyResults : Prop :=
  ∀ s : State, ∃ t : State, exec .decode s = .next t ∧
    t = { s with
      status := t.status, rxIp := t.rxIp, rxTc := t.rxTc, rxIdseq := t.rxIdseq, rxIcmplen := t.rxIcmplen
      rxTsHi := t.rxTsHi, rxTsLo := t.rxTsLo
      draws := if s.cfg.rxbuf < s.rxLen.toNat then s.draws else s.draws + 16 } ∧
    (∀ i, txByte t i = txByte s i) ∧ ∀ i, rxByte t i = rxByte s i

/-- DECODE reads neither the ICMP checksum at HLEN + 2 and HLEN + 3 nor, in a header that holds one, the IP header
checksum at 10 and 11: datagrams that differ only there decode to the same results. -/
def Obligations.DecodeIgnoresChecksums : Prop :=
  ∀ (s : State) (rxb' : Memory) (h : Nat), h = 4 * ((rxByte s 0).toNat % 16) →
    (∀ i, i < s.rxLen.toNat → i ≠ h + 2 → i ≠ h + 3 → ¬((i = 10 ∨ i = 11) ∧ 12 ≤ h) →
      rxByte { s with rxb := rxb' } i = rxByte s i) →
    ∃ t, exec .decode s = .next t ∧ exec .decode { s with rxb := rxb' } = .next { t with rxb := rxb' }

/-- DECODE reads no buffer byte at or past RX_LEN: what lies there does not reach any result. -/
def Obligations.DecodeReadsReceivedBytesOnly : Prop :=
  ∀ (s : State) (rxb' : Memory),
    (∀ i, i < s.rxLen.toNat → rxByte { s with rxb := rxb' } i = rxByte s i) →
    ∃ t, exec .decode s = .next t ∧ exec .decode { s with rxb := rxb' } = .next { t with rxb := rxb' }

/-- R251: decoding the echo of an encoded request recovers its identifier, sequence and timestamp, for every IHL. -/
def Obligations.EchoRoundTrip : Prop :=
  ∀ (s t u : State) (h n : Nat), exec .encode s = .next t → n = t.txLen.toNat →
    h = 4 * ((rxByte u 0).toNat % 16) → rxByte u h = 0#8 →
    (∀ i, i < n → i ≠ 0 → i ≠ 2 → i ≠ 3 → rxByte u (h + i) = txByte t i) →
    u.rxLen.toNat = h + n → h + n ≤ u.cfg.rxbuf →
      ∃ v, exec .decode u = .next v ∧ v.status = ⟨false, true, false, .none⟩ ∧ v.rxIdseq = s.id ++ s.seq ∧
        v.rxTsHi = s.tsHi ∧ v.rxTsLo = s.tsLo ∧ v.rxTc.echo = true ∧ v.rxTc.tsv = true ∧ v.rxIcmplen.toNat = n

/-! ### What no command does -/

/-- No command changes what only the host writes, RXB, the latch, the configuration or the outside world's inputs. -/
def Obligations.CommandsLeaveHostData : Prop :=
  ∀ (i : Instr) (s t : State), exec i s = .next t →
    sameHostData s t ∧ sameOutside s t ∧ ∀ k, rxByte t k = rxByte s k

/-- Each result register is changed only by the commands that own it: TXB and TX_LEN only ENCODE, CSUM_RES only CSUM and ENCODE, PLEN only SETPLEN, SEQ only
SEQINC, the RX result registers only DECODE. -/
def Obligations.ResultsChangeUnderTheirCommands : Prop :=
  ∀ (i : Instr) (s t : State), exec i s = .next t →
    (i ≠ .encode → t.txb = s.txb ∧ t.txLen = s.txLen ∧ ∀ k, txByte t k = txByte s k) ∧
      (i ≠ .encode → (∀ b len, i ≠ .csum b len) → t.csumRes = s.csumRes) ∧
      ((∀ n, i ≠ .setplen n) → t.plen = s.plen) ∧
      (i ≠ .seqinc → t.seq = s.seq) ∧
      (i ≠ .decode → sameDecoded s t ∧ t.draws = s.draws)

/-- R282: an error records only STATUS, but for MALFORMED, which also writes the decode result registers. -/
def Obligations.ErrorsRecordOnlyStatus : Prop :=
  ∀ (i : Instr) (s t : State), exec i s = .next t → t.status.err = true →
    t.status = ⟨false, true, true, t.status.ecode⟩ ∧ t.status.ecode ≠ .none ∧
      (t.status.ecode ≠ .malformed → t = { s with status := t.status }) ∧
      (t.status.ecode = .malformed →
        i = .decode ∧
          t = { s with
            status := t.status, rxIp := t.rxIp, rxTc := t.rxTc, rxIdseq := t.rxIdseq, rxIcmplen := t.rxIcmplen
            rxTsHi := t.rxTsHi, rxTsLo := t.rxTsLo, draws := t.draws })

/-! ### The bus (20_memory.md, 10_state.md) -/

/-- R83: an access that breaks the width classes is a bus error in every state, whatever it carries. -/
def Obligations.BrokenAccessesAreBusErrors : Prop :=
  ∀ (s : State) (a : Access),
    ((a.off.toNat < 0x10000 ∧ (a.width ≠ .word ∨ a.off.toNat % 4 ≠ 0)) ∨
      (0x10000 ≤ a.off.toNat ∧ a.width ≠ .byte)) →
    hostAccess a s = .fault .busError ∧
      (match a with
        | .read off w => memRead s off w = .error .busError
        | .write off d => memWrite s off d = .error .busError)

/-- R335: from a CMD write until STATUS has been read with BUSY = 0, a STATUS read completes, returns BUSY alone while the
command is pending, and BUSY = 0 and DONE = 1 after its step, which closes the window; every other legal access is a
hazard. -/
def Obligations.CommandWindowAllowsStatusOnly : Prop :=
  (∀ (s : State) (a : Access), (s.status.busy = true ∨ s.awaiting = true) → legalAccess a.off a.width = true →
    a ≠ .read 0x004 .word → hostAccess a s = .fault .hazard) ∧
  (∀ s : State, StateInv s → s.status.busy = true →
    hostAccess (.read 0x004 .word) s = .next { s with reads := .word 0x00000001 :: s.reads }) ∧
  (∀ s : State, StateInv s → s.status.busy = false → s.awaiting = true →
    ∃ v : Word, v.getLsbD 0 = false ∧ v.getLsbD 1 = true ∧
      hostAccess (.read 0x004 .word) s = .next { s with reads := .word v :: s.reads, awaiting := false })

/-- The register map: what a word read returns at each offset of R33's table, with the six codes of STATUS.ECODE as
60_exceptions.md R281 numbers them. -/
def Obligations.RegisterReads : Prop :=
  ∀ s : State,
    memRead s 0x000 .word = .ok (.word 0#32) ∧
      (∃ v : Word, memRead s 0x004 .word = .ok (.word v) ∧ v.getLsbD 0 = s.status.busy ∧ v.getLsbD 1 = s.status.done ∧
        v.getLsbD 2 = s.status.err ∧
        v.extractLsb' 4 4 =
          (match s.status.ecode with
            | .none => 0#4
            | .illegalCmd => 1#4
            | .range => 2#4
            | .plenReject => 3#4
            | .rxlenRange => 4#4
            | .malformed => 5#4) ∧
        v &&& 0xFFFFFF08#32 = 0#32) ∧
      memRead s 0x008 .word = .ok (.word (0#16 ++ s.id)) ∧ memRead s 0x00C .word = .ok (.word (0#16 ++ s.seq)) ∧
      memRead s 0x010 .word = .ok (.word (0#16 ++ s.plen)) ∧ memRead s 0x014 .word = .ok (.word s.tsHi) ∧
      memRead s 0x018 .word = .ok (.word s.tsLo) ∧ memRead s 0x01C .word = .ok (.word (0#16 ++ s.txLen)) ∧
      memRead s 0x020 .word = .ok (.word (0#16 ++ s.csumOff)) ∧ memRead s 0x024 .word = .ok (.word (0#16 ++ s.csumRes)) ∧
      memRead s 0x028 .word = .ok (.word (0#16 ++ s.rxLen)) ∧
      (∃ v : Word, memRead s 0x02C .word = .ok (.word v) ∧ v.extractLsb' 0 8 = s.rxIp.hlen ∧
        v.extractLsb' 8 4 = s.rxIp.ihl ∧ v.extractLsb' 16 8 = s.rxIp.ttl ∧ v &&& 0xFF00F000#32 = 0#32) ∧
      (∃ v : Word, memRead s 0x030 .word = .ok (.word v) ∧ v.extractLsb' 0 8 = s.rxTc.code ∧
        v.extractLsb' 8 8 = s.rxTc.typ ∧ v.getLsbD 16 = s.rxTc.echo ∧ v.getLsbD 17 = s.rxTc.tsv ∧
        v &&& 0xFFFC0000#32 = 0#32) ∧
      memRead s 0x034 .word = .ok (.word s.rxIdseq) ∧ memRead s 0x038 .word = .ok (.word (0#16 ++ s.rxIcmplen)) ∧
      memRead s 0x03C .word = .ok (.word s.rxTsHi) ∧ memRead s 0x040 .word = .ok (.word s.rxTsLo)

/-- R49: CFG_MAXDG and CFG_RXBUF read the parameters, ignore writes, and keep their values at every step, resets
included. -/
def Obligations.CfgRegistersAreConstants : Prop :=
  (∀ s : State,
    (∃ v : Word, memRead s 0x044 .word = .ok (.word v) ∧ (v.extractLsb' 0 17).toNat = s.cfg.maxdg ∧
      v.extractLsb' 17 15 = 0#15) ∧
    (∃ v : Word, memRead s 0x048 .word = .ok (.word v) ∧ (v.extractLsb' 0 16).toNat = s.cfg.rxbuf ∧
      v.extractLsb' 16 16 = 0#16) ∧
    (∀ v : Word, memWrite s 0x044 (.word v) = .ok s ∧ memWrite s 0x048 (.word v) = .ok s) ∧
    (applyReset s).cfg = s.cfg) ∧
  ∀ s t : State, step s = .next t → t.cfg = s.cfg

/-- R50: reserved word-class offsets read 0 and ignore writes. -/
def Obligations.ReservedOffsetsReadZero : Prop :=
  ∀ (s : State) (off : Offset) (v : Word), 0x04C ≤ off.toNat → off.toNat ≤ 0x0FFFC → off.toNat % 4 = 0 →
    memRead s off .word = .ok (.word 0#32) ∧ memWrite s off (.word v) = .ok s

/-- Register writes: a read-only register ignores them, a read-write register keeps its used bits, and the write changes
nothing else. -/
def Obligations.RegisterWrites : Prop :=
  ∀ (s : State) (v : Word),
    (∀ off : Offset, off ∈ [0x004, 0x010, 0x01C, 0x024, 0x02C, 0x030, 0x034, 0x038, 0x03C, 0x040, 0x044, 0x048] →
      memWrite s off (.word v) = .ok s) ∧
    memWrite s 0x008 (.word v) = .ok { s with id := v.extractLsb' 0 16 } ∧
    memWrite s 0x00C (.word v) = .ok { s with seq := v.extractLsb' 0 16 } ∧
    memWrite s 0x014 (.word v) = .ok { s with tsHi := v } ∧
    memWrite s 0x018 (.word v) = .ok { s with tsLo := v } ∧
    memWrite s 0x020 (.word v) = .ok { s with csumOff := v.extractLsb' 0 16 } ∧
    memWrite s 0x028 (.word v) = .ok { s with rxLen := v.extractLsb' 0 16 }

/-- What was written to a read-write register is read back, without its unused bits. -/
def Obligations.RegistersReadBack : Prop :=
  ∀ (s : State) (v : Word),
    (∀ off : Offset, off ∈ [0x008, 0x00C, 0x020, 0x028] →
      ∃ t, memWrite s off (.word v) = .ok t ∧ memRead t off .word = .ok (.word (v &&& 0x0000FFFF#32))) ∧
    ∀ off : Offset, off ∈ [0x014, 0x018] →
      ∃ t, memWrite s off (.word v) = .ok t ∧ memRead t off .word = .ok (.word v)

/-- R85: the buffer windows reach TXB and RXB byte by byte; past a buffer's end and from 0x30000 up a byte access reads 0
and a write is ignored. -/
def Obligations.BufferWindows : Prop :=
  ∀ (s : State) (off : Offset) (v : Byte),
    (0x10000 ≤ off.toNat → off.toNat - 0x10000 < s.cfg.maxdg - 1 → off.toNat < 0x20000 →
      memRead s off .byte = .ok (.byte (txByte s (off.toNat - 0x10000))) ∧
        ∃ t, memWrite s off (.byte v) = .ok t ∧ t = { s with txb := t.txb } ∧
          ∀ j, txByte t j = if j = off.toNat - 0x10000 then v else txByte s j) ∧
    (0x20000 ≤ off.toNat → off.toNat - 0x20000 < s.cfg.rxbuf → off.toNat < 0x30000 →
      memRead s off .byte = .ok (.byte (rxByte s (off.toNat - 0x20000))) ∧
        ∃ t, memWrite s off (.byte v) = .ok t ∧ t = { s with rxb := t.rxb } ∧
          ∀ j, rxByte t j = if j = off.toNat - 0x20000 then v else rxByte s j) ∧
    ((0x10000 ≤ off.toNat ∧ off.toNat < 0x20000 ∧ s.cfg.maxdg - 1 ≤ off.toNat - 0x10000) ∨
        (0x20000 ≤ off.toNat ∧ off.toNat < 0x30000 ∧ s.cfg.rxbuf ≤ off.toNat - 0x20000) ∨ 0x30000 ≤ off.toNat →
      memRead s off .byte = .ok (.byte 0#8) ∧ memWrite s off (.byte v) = .ok s)

/-- A legal read outside the command window completes, hands the host the data of MemRead, and changes nothing of the
block, so that reading again gives the same. -/
def Obligations.ReadsHaveNoSideEffect : Prop :=
  ∀ (s : State) (off : Offset) (w : Width), legalAccess off w = true → s.status.busy = false → s.awaiting = false →
    ∃ d, memRead s off w = .ok d ∧ hostAccess (.read off w) s = .next { s with reads := d :: s.reads } ∧
      memRead { s with reads := d :: s.reads } off w = .ok d

/-- A legal write outside the command window completes with the effect of MemWrite. -/
def Obligations.LegalWritesComplete : Prop :=
  ∀ (s : State) (off : Offset) (d : BusData), legalAccess off d.width = true → s.status.busy = false →
    s.awaiting = false → ∃ t, memWrite s off d = .ok t ∧ hostAccess (.write off d) s = .next t

/-- R34: a CMD write outside the window latches the word, sets BUSY, clears DONE, ERR and ECODE, opens the window, and
changes no other register or buffer; a CMD read returns 0 and has no effect; a CMD write while BUSY is a hazard. -/
def Obligations.CmdWriteLatches : Prop :=
  ∀ (s : State) (w : Word),
    (s.status.busy = false → s.awaiting = false →
      ∃ t, hostAccess (.write 0x000 (.word w)) s = .next t ∧ t.cmdl = w ∧ t.status = ⟨true, false, false, .none⟩ ∧
        t.awaiting = true ∧
        t = { s with
          cmdl := t.cmdl, status := t.status, awaiting := t.awaiting, delay := t.delay, latencies := t.latencies
          draws := t.draws } ∧
        hostAccess (.read 0x000 .word) s = .next { s with reads := .word 0#32 :: s.reads }) ∧
    (s.status.busy = true → hostAccess (.write 0x000 (.word w)) s = .fault .hazard)

/-- The block's offset space on the bus: each offset has one bus address, and only those select the block. -/
def Obligations.BusAddressing : Prop :=
  Config.base % 0x40000 = 0 ∧ (∀ off : Offset, offsetAt (busAddress off) = some off) ∧
    ∀ (a : Nat) (off : Offset), offsetAt a = some off → a = busAddress off

/-- The pseudo-instructions of the five commands are CMD writes of the commands' own words. -/
def Obligations.PseudoInstructionsAreCommands : Prop :=
  (∀ (b : Buf) (len : Half),
    assemble (.csum b len) = [.access (.write 0x000 (.word (encode (.csum b len))))]) ∧
  assemble .encode = [.access (.write 0x000 (.word (encode .encode)))] ∧
  assemble .decode = [.access (.write 0x000 (.word (encode .decode)))] ∧
  (∀ t : Half, assemble (.setplen t) = [.access (.write 0x000 (.word (encode (.setplen t))))]) ∧
  assemble .seqinc = [.access (.write 0x000 (.word (encode .seqinc)))]

/-! ### Reset, completion and whole runs (70_reset_and_hazards.md) -/

/-- The reset values the spec gives. -/
def Obligations.ResetValues : Prop :=
  State.reset.status = ⟨false, false, false, .none⟩ ∧ State.reset.id = 0 ∧ State.reset.seq = 0 ∧
    State.reset.plen = 32 ∧ State.reset.tsHi = 0 ∧ State.reset.tsLo = 0 ∧ State.reset.txLen = 0 ∧
    State.reset.csumOff = 0 ∧ State.reset.csumRes = 0 ∧ State.reset.rxLen = 0 ∧ State.reset.rxIp = ⟨0, 0, 0⟩ ∧
    State.reset.rxTc = ⟨0, 0, false, false⟩ ∧ State.reset.rxIdseq = 0 ∧ State.reset.rxIcmplen = 0 ∧
    State.reset.rxTsHi = 0 ∧ State.reset.rxTsLo = 0

/-- R320: the reset input gives every register its reset value, discards a pending command, keeps the CFG constants, and
leaves each buffer byte and CMDL some free value. -/
def Obligations.ResetInputRestores : Prop :=
  ∀ (s : State) (rest : List Input), s.program = .reset :: rest → (s.status.busy = false ∨ 0 < s.delay) →
    ∃ t, step s = .next t ∧
      t = { s with
        status := ⟨false, false, false, .none⟩, id := 0, seq := 0, plen := 32, tsHi := 0, tsLo := 0, txLen := 0
        csumOff := 0, csumRes := 0, rxLen := 0, rxIp := ⟨0, 0, 0⟩, rxTc := ⟨0, 0, false, false⟩, rxIdseq := 0
        rxIcmplen := 0, rxTsHi := 0, rxTsLo := 0, txb := t.txb, rxb := t.rxb, cmdl := t.cmdl, program := rest
        awaiting := false, delay := 0, epoch := t.epoch } ∧
      (∃ e, t.cmdl = Config.cmdlAtReset e ∧
        ∀ i, txByte t i = Config.txInit e i ∧ rxByte t i = Config.rxInit e i)

/-- Reset meets the invariant. -/
def Obligations.ResetMeetsInvariant : Prop := StateInv State.reset

/-- Every step keeps the invariant, from every state that meets it. -/
def Obligations.StepKeepsInvariant : Prop :=
  ∀ s t : State, StateInv s → step s = .next t → StateInv t

/-- A host that keeps the bus rules never faults: from every such state the step completes, in such a state again. -/
def Obligations.DisciplinedHostNeverFaults : Prop :=
  ∀ s : State, SafeState s → ∃ t, step s = .next t ∧ SafeState t

/-- R337: a pending command is performed after finitely many steps of a host that waits for it. -/
def Obligations.CommandsComplete : Prop :=
  ∀ (s : State) (rest : List Input), StateInv s → s.status.busy = true → s.program = .wait :: rest →
    ∃ t, Host.Core.run core (s.delay + 1) s = .next t ∧ t.status.busy = false ∧ t.status.done = true

/-- R322: the block executes nothing until the host writes CMD. -/
def Obligations.NothingRunsByItself : Prop :=
  (∀ s : State, s.status.busy = false → s.program = [] → step s = .next s) ∧
    ∀ s t : State, s.status.busy = false → step s = .next t → t.status.busy = true →
      ∃ w rest, s.program = .access (.write 0x000 (.word w)) :: rest ∧ t.cmdl = w

/-- STATUS keeps its value until the next CMD write: no other access changes it. -/
def Obligations.StatusPersists : Prop :=
  ∀ s t : State, step s = .next t → (s.status.busy = false ∨ 0 < s.delay) →
    (∀ rest, s.program ≠ .reset :: rest) →
    (∀ w rest, s.program ≠ .access (.write 0x000 (.word w)) :: rest) → t.status = s.status

/-! ### Drawn bytes (42_decode.md R240) -/

/-- Every draw is fresh: the drawn bytes of one DECODE (timestamp bytes 0 to 7, TTL as 8, IHL as 9) have numbers of their own,
all from the draws not used before it, which the next one starts after; and no step gives used draws back (log 4). -/
def Obligations.DrawsAreFresh : Prop :=
  (∀ s : State, s.rxLen.toNat ≤ s.cfg.rxbuf →
    ∃ (t : State) (num : Nat → Nat), exec .decode s = .next t ∧
      (∀ j k, j < 10 → k < 10 → num j = num k → j = k) ∧
      (∀ k, k < 10 → s.draws ≤ num k ∧ num k < t.draws) ∧
      (s.rxLen.toNat = 0 → t.rxIp.ihl = (Config.draw8 (num 9)).extractLsb' 0 4) ∧
      (t.status.err = false → s.rxLen.toNat ≤ 8 → t.rxIp.ttl = Config.draw8 (num 8)) ∧
      (t.rxTc.echo = true → ∀ k, k < 8 → s.rxLen.toNat ≤ t.rxIp.hlen.toNat + 8 + k →
        tsByte t.rxTsHi t.rxTsLo k = Config.draw8 (num k))) ∧
  ∀ s t : State, step s = .next t → s.draws ≤ t.draws
end

