-- ==== Sys2Proof/Laws/Checksum.lean ====
section
/-!
SUPPORT. The checksum engine's arithmetic over numbers: one folding pass, the folded sum as a one's-complement residue,
and what a sum depends on (40_checksum.md R170 to R175).
-/

namespace Sys2Proof.Machine

/-! ### Big-endian words -/

theorem be16_toNat (hi lo : Byte) : (be16 hi lo).toNat = 256 * hi.toNat + lo.toNat := by
  simp only [be16, BitVec.toNat_append]
  rw [← Nat.shiftLeft_add_eq_or_of_lt lo.isLt, Nat.shiftLeft_eq]
  omega

theorem hiByte_be16 (hi lo : Byte) : hiByte (be16 hi lo) = hi := by
  apply BitVec.eq_of_toNat_eq
  have := be16_toNat hi lo
  simp only [hiByte, BitVec.extractLsb'_toNat, this, Nat.shiftRight_eq_div_pow]
  omega

theorem loByte_be16 (hi lo : Byte) : loByte (be16 hi lo) = lo := by
  apply BitVec.eq_of_toNat_eq
  have := be16_toNat hi lo
  simp only [loByte, BitVec.extractLsb'_toNat, this, Nat.shiftRight_zero]
  omega

theorem be16_hi_lo (v : Half) : be16 (hiByte v) (loByte v) = v := by
  apply BitVec.eq_of_toNat_eq
  rw [be16_toNat]
  simp only [hiByte, loByte, BitVec.extractLsb'_toNat, Nat.shiftRight_eq_div_pow]
  omega

/-! ### Folding -/

theorem foldPass_toNat (sum : Word) : (foldPass sum).toNat = sum.toNat % 65536 + sum.toNat / 65536 := by
  have h1 : sum.toNat % 65536 < 65536 := Nat.mod_lt _ (by decide)
  have h2 : sum.toNat / 65536 < 65536 := by have := sum.isLt; omega
  simp only [foldPass, BitVec.toNat_add, BitVec.toNat_setWidth, BitVec.extractLsb'_toNat,
    Nat.shiftRight_eq_div_pow, Nat.pow_zero, Nat.div_one, show (2 : Nat) ^ 16 = 65536 from rfl,
    show (2 : Nat) ^ 32 = 4294967296 from rfl]
  rw [Nat.mod_eq_of_lt h2, Nat.mod_eq_of_lt (show _ < 4294967296 by omega),
    Nat.mod_eq_of_lt (show sum.toNat / 65536 < 4294967296 by omega), Nat.mod_eq_of_lt (by omega)]

/-- The folded sum is the representative of the sum modulo 65535 in 1 to 65535, and 0 for the sum 0. -/
theorem foldSum_toNat (sum : Word) :
    (foldSum sum).toNat = if sum.toNat = 0 then 0 else (sum.toNat - 1) % 65535 + 1 := by
  have h0 := sum.isLt
  have h1 := foldPass_toNat sum
  have h2 := foldPass_toNat (foldPass sum)
  simp only [foldSum, foldLoop, BitVec.lt_def, show (0xFFFF#32).toNat = 65535 from rfl]
  split
  · split
    · rw [if_neg (show ¬ 65535 < (foldPass (foldPass sum)).toNat by omega)]
      rw [if_neg (by omega)]
      omega
    · rw [if_neg (by omega)]
      omega
  · split <;> omega

theorem foldSum_le (sum : Word) : (foldSum sum).toNat ≤ 65535 := by
  rw [foldSum_toNat]; split <;> omega

theorem checksum_toNat (B : Nat → Byte) (off len : Nat) :
    (checksum B off len).toNat = 65535 - (foldSum (regionSum B off len)).toNat := by
  have := foldSum_le (regionSum B off len)
  simp only [checksum, BitVec.toNat_not, BitVec.extractLsb'_toNat, Nat.shiftRight_zero]
  omega

/-! ### What a sum depends on -/

theorem wordSum_congr {B B' : Nat → Byte} {off off' n : Nat}
    (h : ∀ i, i < 2 * n → B (off + i) = B' (off' + i)) : wordSum B off n = wordSum B' off' n := by
  induction n with
  | zero => rfl
  | succ n ih =>
    simp only [wordSum]
    rw [ih fun i hi => h i (by omega), h (2 * n) (by omega)]
    have := h (2 * n + 1) (by omega)
    simp only [← Nat.add_assoc] at this
    rw [this]

/-- A region's sum depends on the region's bytes only. -/
theorem regionSum_congr {B B' : Nat → Byte} {off off' len : Nat}
    (h : ∀ i, i < len → B (off + i) = B' (off' + i)) : regionSum B off len = regionSum B' off' len := by
  unfold regionSum
  rw [wordSum_congr (n := len / 2) fun i hi => h i (by omega)]
  split
  · have := h (len - 1) (by omega)
    rw [show off + len - 1 = off + (len - 1) by omega, show off' + len - 1 = off' + (len - 1) by omega, this]
  · rfl

end Sys2Proof.Machine
end

