-- ==== Sys2Proof/Laws/Memory.lean ====
section
/-!
SUPPORT. The laws of a buffer's stored bytes: a read after a write, what a run of writes stores, the canonical form and
that every operation keeps it, and that buffers in canonical form with the same bytes are the same data.
-/

namespace Sys2Proof.Machine

/-! ### Read after write -/

theorem memLookup_memSet (m : Memory) (i j : Nat) (v : Byte) :
    memLookup (memSet m i v) j = if i = j then some v else memLookup m j := by
  induction m with
  | nil => simp [memSet, memLookup]
  | cons c m ih =>
    obtain ⟨a, u⟩ := c
    simp only [memSet]
    split
    · simp [memLookup]
    · split
      · subst_vars; simp only [memLookup]; split <;> rfl
      · simp only [memLookup, ih]; split <;> split <;> simp_all

theorem memLookup_memSetMany (bs : List Byte) (m : Memory) (i j : Nat) :
    memLookup (memSetMany m i bs) j = if i ≤ j ∧ j < i + bs.length then bs[j - i]? else memLookup m j := by
  induction bs generalizing m i with
  | nil => simp only [memSetMany, List.length_nil]; rw [if_neg (by omega)]
  | cons b bs ih =>
    simp only [memSetMany, ih, memLookup_memSet, List.length_cons]
    by_cases h : i = j
    · subst h; simp
    · by_cases h2 : i + 1 ≤ j ∧ j < i + 1 + bs.length
      · rw [if_pos h2, if_pos (by omega), show j - i = (j - (i + 1)) + 1 by omega, List.getElem?_cons_succ]
      · rw [if_neg h2, if_neg h, if_neg (by omega)]

/-! ### The canonical form -/

theorem memWfFrom_memSet {size i : Nat} (hi : i < size) (v : Byte) :
    ∀ {m : Memory} {lo : Nat}, lo ≤ i → memWfFrom lo size m = true → memWfFrom lo size (memSet m i v) = true := by
  intro m
  induction m with
  | nil => intro lo hlo _; simp [memSet, memWfFrom, hlo, hi]
  | cons c m ih =>
    obtain ⟨a, u⟩ := c
    intro lo hlo h
    simp only [memWfFrom, Bool.and_eq_true, decide_eq_true_eq] at h
    obtain ⟨⟨h1, h2⟩, h3⟩ := h
    simp only [memSet]
    split
    · rename_i hia; simp [memWfFrom, hlo, hi, h2, h3]; omega
    · split
      · subst_vars; simp [memWfFrom, hlo, hi, h3]
      · simp [memWfFrom, h1, h2, ih (show a + 1 ≤ i by omega) h3]

/-- A write inside the buffer keeps the canonical form. -/
theorem memWf_memSet {size i : Nat} {m : Memory} (v : Byte) (hi : i < size) (h : Memory.wf size m = true) :
    Memory.wf size (memSet m i v) = true :=
  memWfFrom_memSet hi v (Nat.zero_le i) h

/-- A run of writes inside the buffer keeps the canonical form. -/
theorem memWf_memSetMany {size : Nat} (bs : List Byte) {m : Memory} {i : Nat} (hi : i + bs.length ≤ size)
    (h : Memory.wf size m = true) : Memory.wf size (memSetMany m i bs) = true := by
  induction bs generalizing m i with
  | nil => exact h
  | cons b bs ih =>
    simp only [List.length_cons] at hi
    exact ih (by omega) (memWf_memSet b (by omega) h)

/-- The empty buffer is in canonical form. -/
theorem memWf_nil (size : Nat) : Memory.wf size [] = true := rfl

/-! ### Equal bytes are equal data -/

theorem memLookup_below {size : Nat} :
    ∀ {m : Memory} {lo i : Nat}, memWfFrom lo size m = true → i < lo → memLookup m i = none := by
  intro m
  induction m with
  | nil => intros; rfl
  | cons c m ih =>
    obtain ⟨a, u⟩ := c
    intro lo i h hi
    simp only [memWfFrom, Bool.and_eq_true, decide_eq_true_eq] at h
    rw [memLookup, if_neg (by omega)]
    exact ih h.2 (by omega)

theorem memWfFrom_ext {size : Nat} :
    ∀ {m m' : Memory} {lo lo' : Nat}, memWfFrom lo size m = true → memWfFrom lo' size m' = true →
      (∀ i, memLookup m i = memLookup m' i) → m = m' := by
  intro m
  induction m with
  | nil =>
    intro m' lo lo' _ _ h
    cases m' with
    | nil => rfl
    | cons c' m' => simpa [memLookup] using h c'.1
  | cons c m ih =>
    obtain ⟨a, u⟩ := c
    intro m' lo lo' w w' h
    simp only [memWfFrom, Bool.and_eq_true, decide_eq_true_eq] at w
    cases m' with
    | nil => simpa [memLookup] using h a
    | cons c' m' =>
      obtain ⟨a', u'⟩ := c'
      simp only [memWfFrom, Bool.and_eq_true, decide_eq_true_eq] at w'
      have haa : a = a' := by
        rcases Nat.lt_trichotomy a a' with hlt | heq | hgt
        · have := h a
          rw [memLookup, if_pos rfl, memLookup, if_neg (by omega), memLookup_below w'.2 (by omega)] at this
          cases this
        · exact heq
        · have := h a'
          rw [memLookup, if_neg (by omega), memLookup_below w.2 (by omega), memLookup, if_pos rfl] at this
          cases this
      subst haa
      have hu := h a
      rw [memLookup, if_pos rfl, memLookup, if_pos rfl, Option.some.injEq] at hu
      subst hu
      congr 1
      refine ih w.2 w'.2 fun i => ?_
      by_cases hi : i < a + 1
      · rw [memLookup_below w.2 hi, memLookup_below w'.2 hi]
      · have := h i
        rwa [memLookup, if_neg (by omega), memLookup, if_neg (by omega)] at this

/-- Buffers in canonical form that store the same bytes are the same list. -/
theorem memWf_ext {size : Nat} {m m' : Memory} (w : Memory.wf size m = true) (w' : Memory.wf size m' = true)
    (h : ∀ i, memLookup m i = memLookup m' i) : m = m' :=
  memWfFrom_ext w w' h

/-! ### The buffers -/

theorem txByte_setTx (s : State) (i j : Nat) (v : Byte) :
    txByte (setTx s i v) j = if i = j then v else txByte s j := by
  unfold txByte setTx
  rw [memLookup_memSet]
  split <;> rfl

theorem rxByte_setRx (s : State) (i j : Nat) (v : Byte) :
    rxByte (setRx s i v) j = if i = j then v else rxByte s j := by
  unfold rxByte setRx
  rw [memLookup_memSet]
  split <;> rfl

@[simp] theorem rxByte_setTx (s : State) (i j : Nat) (v : Byte) : rxByte (setTx s i v) j = rxByte s j := rfl

@[simp] theorem txByte_setRx (s : State) (i j : Nat) (v : Byte) : txByte (setRx s i v) j = txByte s j := rfl

/-- A buffer reads as it does in any state with the same stored bytes and the same reset epoch. -/
theorem txByte_congr {s t : State} (h : t.txb = s.txb) (he : t.epoch = s.epoch) : txByte t = txByte s := by
  funext i; simp [txByte, h, he]

theorem rxByte_congr {s t : State} (h : t.rxb = s.rxb) (he : t.epoch = s.epoch) : rxByte t = rxByte s := by
  funext i; simp [rxByte, h, he]

end Sys2Proof.Machine
end

