-- ==== Sys2Proof/Laws/Operands.lean ====
section
/-!
SUPPORT. The bytes of a big-endian word, and the timestamp's byte mapping both ways (10_state.md R39, R48).
-/

namespace Sys2Proof.Machine

theorem be32_byte0 (a b c d : Byte) : (be32 a b c d).extractLsb' 24 8 = a := by
  apply BitVec.eq_of_getLsbD_eq; intro i hi
  simp only [be32, BitVec.getLsbD_extractLsb', BitVec.getLsbD_append]
  simp [hi, show ¬24 + i < 8 by omega, show ¬24 + i - 8 < 8 by omega, show ¬24 + i - 8 - 8 < 8 by omega,
    show 24 + i - 8 - 8 - 8 = i by omega]

theorem be32_byte1 (a b c d : Byte) : (be32 a b c d).extractLsb' 16 8 = b := by
  apply BitVec.eq_of_getLsbD_eq; intro i hi
  simp only [be32, BitVec.getLsbD_extractLsb', BitVec.getLsbD_append]
  simp [hi, show ¬16 + i < 8 by omega, show ¬16 + i - 8 < 8 by omega,
    show 16 + i - 8 - 8 = i by omega]

theorem be32_byte2 (a b c d : Byte) : (be32 a b c d).extractLsb' 8 8 = c := by
  apply BitVec.eq_of_getLsbD_eq; intro i hi
  simp only [be32, BitVec.getLsbD_extractLsb', BitVec.getLsbD_append]
  simp [hi, show ¬8 + i < 8 by omega]

theorem be32_byte3 (a b c d : Byte) : (be32 a b c d).extractLsb' 0 8 = d := by
  apply BitVec.eq_of_getLsbD_eq; intro i hi
  simp only [be32, BitVec.getLsbD_extractLsb', BitVec.getLsbD_append]
  simp [hi]

/-- The timestamp bytes of two words assembled from eight bytes are those bytes: TS[0] to TS[3] from the first word, TS[4]
to TS[7] from the second. -/
theorem tsByte_be32 (a b c d e f g h : Byte) :
    ∀ (k : Nat) (hk : k < 8), tsByte (be32 a b c d) (be32 e f g h) k = [a, b, c, d, e, f, g, h][k]
  | 0, _ => be32_byte0 a b c d
  | 1, _ => be32_byte1 a b c d
  | 2, _ => be32_byte2 a b c d
  | 3, _ => be32_byte3 a b c d
  | 4, _ => be32_byte0 e f g h
  | 5, _ => be32_byte1 e f g h
  | 6, _ => be32_byte2 e f g h
  | 7, _ => be32_byte3 e f g h
  | _ + 8, hk => absurd hk (by omega)

/-- The eight timestamp bytes determine both registers. -/
theorem tsByte_ext {a b c d : Word} (h : ∀ k, k < 8 → tsByte a b k = tsByte c d k) : a = c ∧ b = d := by
  constructor
  · apply BitVec.eq_of_getLsbD_eq; intro i hi
    have := congrArg (fun x : Byte => x.getLsbD (i % 8)) (h (3 - i / 8) (by omega))
    simp only [tsByte, if_pos (show 3 - i / 8 < 4 by omega), BitVec.getLsbD_extractLsb'] at this
    rw [show 24 - 8 * (3 - i / 8) + i % 8 = i by omega] at this
    simpa [show i % 8 < 8 by omega] using this
  · apply BitVec.eq_of_getLsbD_eq; intro i hi
    have := congrArg (fun x : Byte => x.getLsbD (i % 8)) (h (7 - i / 8) (by omega))
    simp only [tsByte, if_neg (show ¬7 - i / 8 < 4 by omega), BitVec.getLsbD_extractLsb'] at this
    rw [show 24 - 8 * (7 - i / 8 - 4) + i % 8 = i by omega] at this
    simpa [show i % 8 < 8 by omega] using this

end Sys2Proof.Machine
end

