-- ==== Sys2Proof/Laws/State.lean ====
section
/-!
SUPPORT. The fields of the state after each named update: one lemma per field per update, each by rfl.
-/

namespace Sys2Proof.Machine

variable (s : State)

/-! ### `complete` -/

@[simp] theorem complete_status : (complete s).status = statusSuccess := rfl
@[simp] theorem complete_id : (complete s).id = s.id := rfl
@[simp] theorem complete_seq : (complete s).seq = s.seq := rfl
@[simp] theorem complete_plen : (complete s).plen = s.plen := rfl
@[simp] theorem complete_tsHi : (complete s).tsHi = s.tsHi := rfl
@[simp] theorem complete_tsLo : (complete s).tsLo = s.tsLo := rfl
@[simp] theorem complete_txLen : (complete s).txLen = s.txLen := rfl
@[simp] theorem complete_csumOff : (complete s).csumOff = s.csumOff := rfl
@[simp] theorem complete_csumRes : (complete s).csumRes = s.csumRes := rfl
@[simp] theorem complete_rxLen : (complete s).rxLen = s.rxLen := rfl
@[simp] theorem complete_rxIp : (complete s).rxIp = s.rxIp := rfl
@[simp] theorem complete_rxTc : (complete s).rxTc = s.rxTc := rfl
@[simp] theorem complete_rxIdseq : (complete s).rxIdseq = s.rxIdseq := rfl
@[simp] theorem complete_rxIcmplen : (complete s).rxIcmplen = s.rxIcmplen := rfl
@[simp] theorem complete_rxTsHi : (complete s).rxTsHi = s.rxTsHi := rfl
@[simp] theorem complete_rxTsLo : (complete s).rxTsLo = s.rxTsLo := rfl
@[simp] theorem complete_cfg : (complete s).cfg = s.cfg := rfl
@[simp] theorem complete_txb : (complete s).txb = s.txb := rfl
@[simp] theorem complete_rxb : (complete s).rxb = s.rxb := rfl
@[simp] theorem complete_cmdl : (complete s).cmdl = s.cmdl := rfl
@[simp] theorem complete_program : (complete s).program = s.program := rfl
@[simp] theorem complete_reads : (complete s).reads = s.reads := rfl
@[simp] theorem complete_awaiting : (complete s).awaiting = s.awaiting := rfl
@[simp] theorem complete_delay : (complete s).delay = s.delay := rfl
@[simp] theorem complete_latencies : (complete s).latencies = s.latencies := rfl
@[simp] theorem complete_draws : (complete s).draws = s.draws := rfl
@[simp] theorem complete_epoch : (complete s).epoch = s.epoch := rfl

/-! ### `raise` -/

@[simp] theorem raise_status (c : ECode) : (raise c s).status = statusError c := rfl
@[simp] theorem raise_id (c : ECode) : (raise c s).id = s.id := rfl
@[simp] theorem raise_seq (c : ECode) : (raise c s).seq = s.seq := rfl
@[simp] theorem raise_plen (c : ECode) : (raise c s).plen = s.plen := rfl
@[simp] theorem raise_tsHi (c : ECode) : (raise c s).tsHi = s.tsHi := rfl
@[simp] theorem raise_tsLo (c : ECode) : (raise c s).tsLo = s.tsLo := rfl
@[simp] theorem raise_txLen (c : ECode) : (raise c s).txLen = s.txLen := rfl
@[simp] theorem raise_csumOff (c : ECode) : (raise c s).csumOff = s.csumOff := rfl
@[simp] theorem raise_csumRes (c : ECode) : (raise c s).csumRes = s.csumRes := rfl
@[simp] theorem raise_rxLen (c : ECode) : (raise c s).rxLen = s.rxLen := rfl
@[simp] theorem raise_rxIp (c : ECode) : (raise c s).rxIp = s.rxIp := rfl
@[simp] theorem raise_rxTc (c : ECode) : (raise c s).rxTc = s.rxTc := rfl
@[simp] theorem raise_rxIdseq (c : ECode) : (raise c s).rxIdseq = s.rxIdseq := rfl
@[simp] theorem raise_rxIcmplen (c : ECode) : (raise c s).rxIcmplen = s.rxIcmplen := rfl
@[simp] theorem raise_rxTsHi (c : ECode) : (raise c s).rxTsHi = s.rxTsHi := rfl
@[simp] theorem raise_rxTsLo (c : ECode) : (raise c s).rxTsLo = s.rxTsLo := rfl
@[simp] theorem raise_cfg (c : ECode) : (raise c s).cfg = s.cfg := rfl
@[simp] theorem raise_txb (c : ECode) : (raise c s).txb = s.txb := rfl
@[simp] theorem raise_rxb (c : ECode) : (raise c s).rxb = s.rxb := rfl
@[simp] theorem raise_cmdl (c : ECode) : (raise c s).cmdl = s.cmdl := rfl
@[simp] theorem raise_program (c : ECode) : (raise c s).program = s.program := rfl
@[simp] theorem raise_reads (c : ECode) : (raise c s).reads = s.reads := rfl
@[simp] theorem raise_awaiting (c : ECode) : (raise c s).awaiting = s.awaiting := rfl
@[simp] theorem raise_delay (c : ECode) : (raise c s).delay = s.delay := rfl
@[simp] theorem raise_latencies (c : ECode) : (raise c s).latencies = s.latencies := rfl
@[simp] theorem raise_draws (c : ECode) : (raise c s).draws = s.draws := rfl
@[simp] theorem raise_epoch (c : ECode) : (raise c s).epoch = s.epoch := rfl

/-! ### `setTx` -/

@[simp] theorem setTx_status (i : Nat) (v : Byte) : (setTx s i v).status = s.status := rfl
@[simp] theorem setTx_id (i : Nat) (v : Byte) : (setTx s i v).id = s.id := rfl
@[simp] theorem setTx_seq (i : Nat) (v : Byte) : (setTx s i v).seq = s.seq := rfl
@[simp] theorem setTx_plen (i : Nat) (v : Byte) : (setTx s i v).plen = s.plen := rfl
@[simp] theorem setTx_tsHi (i : Nat) (v : Byte) : (setTx s i v).tsHi = s.tsHi := rfl
@[simp] theorem setTx_tsLo (i : Nat) (v : Byte) : (setTx s i v).tsLo = s.tsLo := rfl
@[simp] theorem setTx_txLen (i : Nat) (v : Byte) : (setTx s i v).txLen = s.txLen := rfl
@[simp] theorem setTx_csumOff (i : Nat) (v : Byte) : (setTx s i v).csumOff = s.csumOff := rfl
@[simp] theorem setTx_csumRes (i : Nat) (v : Byte) : (setTx s i v).csumRes = s.csumRes := rfl
@[simp] theorem setTx_rxLen (i : Nat) (v : Byte) : (setTx s i v).rxLen = s.rxLen := rfl
@[simp] theorem setTx_rxIp (i : Nat) (v : Byte) : (setTx s i v).rxIp = s.rxIp := rfl
@[simp] theorem setTx_rxTc (i : Nat) (v : Byte) : (setTx s i v).rxTc = s.rxTc := rfl
@[simp] theorem setTx_rxIdseq (i : Nat) (v : Byte) : (setTx s i v).rxIdseq = s.rxIdseq := rfl
@[simp] theorem setTx_rxIcmplen (i : Nat) (v : Byte) : (setTx s i v).rxIcmplen = s.rxIcmplen := rfl
@[simp] theorem setTx_rxTsHi (i : Nat) (v : Byte) : (setTx s i v).rxTsHi = s.rxTsHi := rfl
@[simp] theorem setTx_rxTsLo (i : Nat) (v : Byte) : (setTx s i v).rxTsLo = s.rxTsLo := rfl
@[simp] theorem setTx_cfg (i : Nat) (v : Byte) : (setTx s i v).cfg = s.cfg := rfl
@[simp] theorem setTx_txb (i : Nat) (v : Byte) : (setTx s i v).txb = memSet s.txb i v := rfl
@[simp] theorem setTx_rxb (i : Nat) (v : Byte) : (setTx s i v).rxb = s.rxb := rfl
@[simp] theorem setTx_cmdl (i : Nat) (v : Byte) : (setTx s i v).cmdl = s.cmdl := rfl
@[simp] theorem setTx_program (i : Nat) (v : Byte) : (setTx s i v).program = s.program := rfl
@[simp] theorem setTx_reads (i : Nat) (v : Byte) : (setTx s i v).reads = s.reads := rfl
@[simp] theorem setTx_awaiting (i : Nat) (v : Byte) : (setTx s i v).awaiting = s.awaiting := rfl
@[simp] theorem setTx_delay (i : Nat) (v : Byte) : (setTx s i v).delay = s.delay := rfl
@[simp] theorem setTx_latencies (i : Nat) (v : Byte) : (setTx s i v).latencies = s.latencies := rfl
@[simp] theorem setTx_draws (i : Nat) (v : Byte) : (setTx s i v).draws = s.draws := rfl
@[simp] theorem setTx_epoch (i : Nat) (v : Byte) : (setTx s i v).epoch = s.epoch := rfl

/-! ### `setRx` -/

@[simp] theorem setRx_status (i : Nat) (v : Byte) : (setRx s i v).status = s.status := rfl
@[simp] theorem setRx_id (i : Nat) (v : Byte) : (setRx s i v).id = s.id := rfl
@[simp] theorem setRx_seq (i : Nat) (v : Byte) : (setRx s i v).seq = s.seq := rfl
@[simp] theorem setRx_plen (i : Nat) (v : Byte) : (setRx s i v).plen = s.plen := rfl
@[simp] theorem setRx_tsHi (i : Nat) (v : Byte) : (setRx s i v).tsHi = s.tsHi := rfl
@[simp] theorem setRx_tsLo (i : Nat) (v : Byte) : (setRx s i v).tsLo = s.tsLo := rfl
@[simp] theorem setRx_txLen (i : Nat) (v : Byte) : (setRx s i v).txLen = s.txLen := rfl
@[simp] theorem setRx_csumOff (i : Nat) (v : Byte) : (setRx s i v).csumOff = s.csumOff := rfl
@[simp] theorem setRx_csumRes (i : Nat) (v : Byte) : (setRx s i v).csumRes = s.csumRes := rfl
@[simp] theorem setRx_rxLen (i : Nat) (v : Byte) : (setRx s i v).rxLen = s.rxLen := rfl
@[simp] theorem setRx_rxIp (i : Nat) (v : Byte) : (setRx s i v).rxIp = s.rxIp := rfl
@[simp] theorem setRx_rxTc (i : Nat) (v : Byte) : (setRx s i v).rxTc = s.rxTc := rfl
@[simp] theorem setRx_rxIdseq (i : Nat) (v : Byte) : (setRx s i v).rxIdseq = s.rxIdseq := rfl
@[simp] theorem setRx_rxIcmplen (i : Nat) (v : Byte) : (setRx s i v).rxIcmplen = s.rxIcmplen := rfl
@[simp] theorem setRx_rxTsHi (i : Nat) (v : Byte) : (setRx s i v).rxTsHi = s.rxTsHi := rfl
@[simp] theorem setRx_rxTsLo (i : Nat) (v : Byte) : (setRx s i v).rxTsLo = s.rxTsLo := rfl
@[simp] theorem setRx_cfg (i : Nat) (v : Byte) : (setRx s i v).cfg = s.cfg := rfl
@[simp] theorem setRx_txb (i : Nat) (v : Byte) : (setRx s i v).txb = s.txb := rfl
@[simp] theorem setRx_rxb (i : Nat) (v : Byte) : (setRx s i v).rxb = memSet s.rxb i v := rfl
@[simp] theorem setRx_cmdl (i : Nat) (v : Byte) : (setRx s i v).cmdl = s.cmdl := rfl
@[simp] theorem setRx_program (i : Nat) (v : Byte) : (setRx s i v).program = s.program := rfl
@[simp] theorem setRx_reads (i : Nat) (v : Byte) : (setRx s i v).reads = s.reads := rfl
@[simp] theorem setRx_awaiting (i : Nat) (v : Byte) : (setRx s i v).awaiting = s.awaiting := rfl
@[simp] theorem setRx_delay (i : Nat) (v : Byte) : (setRx s i v).delay = s.delay := rfl
@[simp] theorem setRx_latencies (i : Nat) (v : Byte) : (setRx s i v).latencies = s.latencies := rfl
@[simp] theorem setRx_draws (i : Nat) (v : Byte) : (setRx s i v).draws = s.draws := rfl
@[simp] theorem setRx_epoch (i : Nat) (v : Byte) : (setRx s i v).epoch = s.epoch := rfl

/-! ### `latchCommand` -/

@[simp] theorem latchCommand_status (w : Word) (d : Nat) : (latchCommand w d s).status = statusPending := rfl
@[simp] theorem latchCommand_id (w : Word) (d : Nat) : (latchCommand w d s).id = s.id := rfl
@[simp] theorem latchCommand_seq (w : Word) (d : Nat) : (latchCommand w d s).seq = s.seq := rfl
@[simp] theorem latchCommand_plen (w : Word) (d : Nat) : (latchCommand w d s).plen = s.plen := rfl
@[simp] theorem latchCommand_tsHi (w : Word) (d : Nat) : (latchCommand w d s).tsHi = s.tsHi := rfl
@[simp] theorem latchCommand_tsLo (w : Word) (d : Nat) : (latchCommand w d s).tsLo = s.tsLo := rfl
@[simp] theorem latchCommand_txLen (w : Word) (d : Nat) : (latchCommand w d s).txLen = s.txLen := rfl
@[simp] theorem latchCommand_csumOff (w : Word) (d : Nat) : (latchCommand w d s).csumOff = s.csumOff := rfl
@[simp] theorem latchCommand_csumRes (w : Word) (d : Nat) : (latchCommand w d s).csumRes = s.csumRes := rfl
@[simp] theorem latchCommand_rxLen (w : Word) (d : Nat) : (latchCommand w d s).rxLen = s.rxLen := rfl
@[simp] theorem latchCommand_rxIp (w : Word) (d : Nat) : (latchCommand w d s).rxIp = s.rxIp := rfl
@[simp] theorem latchCommand_rxTc (w : Word) (d : Nat) : (latchCommand w d s).rxTc = s.rxTc := rfl
@[simp] theorem latchCommand_rxIdseq (w : Word) (d : Nat) : (latchCommand w d s).rxIdseq = s.rxIdseq := rfl
@[simp] theorem latchCommand_rxIcmplen (w : Word) (d : Nat) : (latchCommand w d s).rxIcmplen = s.rxIcmplen := rfl
@[simp] theorem latchCommand_rxTsHi (w : Word) (d : Nat) : (latchCommand w d s).rxTsHi = s.rxTsHi := rfl
@[simp] theorem latchCommand_rxTsLo (w : Word) (d : Nat) : (latchCommand w d s).rxTsLo = s.rxTsLo := rfl
@[simp] theorem latchCommand_cfg (w : Word) (d : Nat) : (latchCommand w d s).cfg = s.cfg := rfl
@[simp] theorem latchCommand_txb (w : Word) (d : Nat) : (latchCommand w d s).txb = s.txb := rfl
@[simp] theorem latchCommand_rxb (w : Word) (d : Nat) : (latchCommand w d s).rxb = s.rxb := rfl
@[simp] theorem latchCommand_cmdl (w : Word) (d : Nat) : (latchCommand w d s).cmdl = w := rfl
@[simp] theorem latchCommand_program (w : Word) (d : Nat) : (latchCommand w d s).program = s.program := rfl
@[simp] theorem latchCommand_reads (w : Word) (d : Nat) : (latchCommand w d s).reads = s.reads := rfl
@[simp] theorem latchCommand_awaiting (w : Word) (d : Nat) : (latchCommand w d s).awaiting = true := rfl
@[simp] theorem latchCommand_delay (w : Word) (d : Nat) : (latchCommand w d s).delay = d := rfl
@[simp] theorem latchCommand_latencies (w : Word) (d : Nat) : (latchCommand w d s).latencies = s.latencies := rfl
@[simp] theorem latchCommand_draws (w : Word) (d : Nat) : (latchCommand w d s).draws = s.draws := rfl
@[simp] theorem latchCommand_epoch (w : Word) (d : Nat) : (latchCommand w d s).epoch = s.epoch := rfl

/-! ### `placeCommand` -/

@[simp] theorem placeCommand_status (w : Word) : (placeCommand w s).status = statusPending := rfl
@[simp] theorem placeCommand_id (w : Word) : (placeCommand w s).id = s.id := rfl
@[simp] theorem placeCommand_seq (w : Word) : (placeCommand w s).seq = s.seq := rfl
@[simp] theorem placeCommand_plen (w : Word) : (placeCommand w s).plen = s.plen := rfl
@[simp] theorem placeCommand_tsHi (w : Word) : (placeCommand w s).tsHi = s.tsHi := rfl
@[simp] theorem placeCommand_tsLo (w : Word) : (placeCommand w s).tsLo = s.tsLo := rfl
@[simp] theorem placeCommand_txLen (w : Word) : (placeCommand w s).txLen = s.txLen := rfl
@[simp] theorem placeCommand_csumOff (w : Word) : (placeCommand w s).csumOff = s.csumOff := rfl
@[simp] theorem placeCommand_csumRes (w : Word) : (placeCommand w s).csumRes = s.csumRes := rfl
@[simp] theorem placeCommand_rxLen (w : Word) : (placeCommand w s).rxLen = s.rxLen := rfl
@[simp] theorem placeCommand_rxIp (w : Word) : (placeCommand w s).rxIp = s.rxIp := rfl
@[simp] theorem placeCommand_rxTc (w : Word) : (placeCommand w s).rxTc = s.rxTc := rfl
@[simp] theorem placeCommand_rxIdseq (w : Word) : (placeCommand w s).rxIdseq = s.rxIdseq := rfl
@[simp] theorem placeCommand_rxIcmplen (w : Word) : (placeCommand w s).rxIcmplen = s.rxIcmplen := rfl
@[simp] theorem placeCommand_rxTsHi (w : Word) : (placeCommand w s).rxTsHi = s.rxTsHi := rfl
@[simp] theorem placeCommand_rxTsLo (w : Word) : (placeCommand w s).rxTsLo = s.rxTsLo := rfl
@[simp] theorem placeCommand_cfg (w : Word) : (placeCommand w s).cfg = s.cfg := rfl
@[simp] theorem placeCommand_txb (w : Word) : (placeCommand w s).txb = s.txb := rfl
@[simp] theorem placeCommand_rxb (w : Word) : (placeCommand w s).rxb = s.rxb := rfl
@[simp] theorem placeCommand_cmdl (w : Word) : (placeCommand w s).cmdl = w := rfl
@[simp] theorem placeCommand_program (w : Word) : (placeCommand w s).program = s.program := rfl
@[simp] theorem placeCommand_reads (w : Word) : (placeCommand w s).reads = s.reads := rfl
@[simp] theorem placeCommand_awaiting (w : Word) : (placeCommand w s).awaiting = true := rfl
@[simp] theorem placeCommand_delay (w : Word) : (placeCommand w s).delay = 0 := rfl
@[simp] theorem placeCommand_latencies (w : Word) : (placeCommand w s).latencies = s.latencies := rfl
@[simp] theorem placeCommand_draws (w : Word) : (placeCommand w s).draws = s.draws := rfl
@[simp] theorem placeCommand_epoch (w : Word) : (placeCommand w s).epoch = s.epoch := rfl

/-! ### `writeRequest` -/

@[simp] theorem writeRequest_status : (writeRequest s).status = s.status := rfl
@[simp] theorem writeRequest_id : (writeRequest s).id = s.id := rfl
@[simp] theorem writeRequest_seq : (writeRequest s).seq = s.seq := rfl
@[simp] theorem writeRequest_plen : (writeRequest s).plen = s.plen := rfl
@[simp] theorem writeRequest_tsHi : (writeRequest s).tsHi = s.tsHi := rfl
@[simp] theorem writeRequest_tsLo : (writeRequest s).tsLo = s.tsLo := rfl
@[simp] theorem writeRequest_txLen : (writeRequest s).txLen = s.txLen := rfl
@[simp] theorem writeRequest_csumOff : (writeRequest s).csumOff = s.csumOff := rfl
@[simp] theorem writeRequest_csumRes : (writeRequest s).csumRes = s.csumRes := rfl
@[simp] theorem writeRequest_rxLen : (writeRequest s).rxLen = s.rxLen := rfl
@[simp] theorem writeRequest_rxIp : (writeRequest s).rxIp = s.rxIp := rfl
@[simp] theorem writeRequest_rxTc : (writeRequest s).rxTc = s.rxTc := rfl
@[simp] theorem writeRequest_rxIdseq : (writeRequest s).rxIdseq = s.rxIdseq := rfl
@[simp] theorem writeRequest_rxIcmplen : (writeRequest s).rxIcmplen = s.rxIcmplen := rfl
@[simp] theorem writeRequest_rxTsHi : (writeRequest s).rxTsHi = s.rxTsHi := rfl
@[simp] theorem writeRequest_rxTsLo : (writeRequest s).rxTsLo = s.rxTsLo := rfl
@[simp] theorem writeRequest_cfg : (writeRequest s).cfg = s.cfg := rfl
@[simp] theorem writeRequest_txb : (writeRequest s).txb = memSetMany s.txb 0 (requestBytes s) := by
  rw [writeRequest]
@[simp] theorem writeRequest_rxb : (writeRequest s).rxb = s.rxb := rfl
@[simp] theorem writeRequest_cmdl : (writeRequest s).cmdl = s.cmdl := rfl
@[simp] theorem writeRequest_program : (writeRequest s).program = s.program := rfl
@[simp] theorem writeRequest_reads : (writeRequest s).reads = s.reads := rfl
@[simp] theorem writeRequest_awaiting : (writeRequest s).awaiting = s.awaiting := rfl
@[simp] theorem writeRequest_delay : (writeRequest s).delay = s.delay := rfl
@[simp] theorem writeRequest_latencies : (writeRequest s).latencies = s.latencies := rfl
@[simp] theorem writeRequest_draws : (writeRequest s).draws = s.draws := rfl
@[simp] theorem writeRequest_epoch : (writeRequest s).epoch = s.epoch := rfl

/-! ### `noteRead` -/

@[simp] theorem noteRead_status (a : Access) (d : BusData) : (noteRead a d s).status = s.status := rfl
@[simp] theorem noteRead_id (a : Access) (d : BusData) : (noteRead a d s).id = s.id := rfl
@[simp] theorem noteRead_seq (a : Access) (d : BusData) : (noteRead a d s).seq = s.seq := rfl
@[simp] theorem noteRead_plen (a : Access) (d : BusData) : (noteRead a d s).plen = s.plen := rfl
@[simp] theorem noteRead_tsHi (a : Access) (d : BusData) : (noteRead a d s).tsHi = s.tsHi := rfl
@[simp] theorem noteRead_tsLo (a : Access) (d : BusData) : (noteRead a d s).tsLo = s.tsLo := rfl
@[simp] theorem noteRead_txLen (a : Access) (d : BusData) : (noteRead a d s).txLen = s.txLen := rfl
@[simp] theorem noteRead_csumOff (a : Access) (d : BusData) : (noteRead a d s).csumOff = s.csumOff := rfl
@[simp] theorem noteRead_csumRes (a : Access) (d : BusData) : (noteRead a d s).csumRes = s.csumRes := rfl
@[simp] theorem noteRead_rxLen (a : Access) (d : BusData) : (noteRead a d s).rxLen = s.rxLen := rfl
@[simp] theorem noteRead_rxIp (a : Access) (d : BusData) : (noteRead a d s).rxIp = s.rxIp := rfl
@[simp] theorem noteRead_rxTc (a : Access) (d : BusData) : (noteRead a d s).rxTc = s.rxTc := rfl
@[simp] theorem noteRead_rxIdseq (a : Access) (d : BusData) : (noteRead a d s).rxIdseq = s.rxIdseq := rfl
@[simp] theorem noteRead_rxIcmplen (a : Access) (d : BusData) : (noteRead a d s).rxIcmplen = s.rxIcmplen := rfl
@[simp] theorem noteRead_rxTsHi (a : Access) (d : BusData) : (noteRead a d s).rxTsHi = s.rxTsHi := rfl
@[simp] theorem noteRead_rxTsLo (a : Access) (d : BusData) : (noteRead a d s).rxTsLo = s.rxTsLo := rfl
@[simp] theorem noteRead_cfg (a : Access) (d : BusData) : (noteRead a d s).cfg = s.cfg := rfl
@[simp] theorem noteRead_txb (a : Access) (d : BusData) : (noteRead a d s).txb = s.txb := rfl
@[simp] theorem noteRead_rxb (a : Access) (d : BusData) : (noteRead a d s).rxb = s.rxb := rfl
@[simp] theorem noteRead_cmdl (a : Access) (d : BusData) : (noteRead a d s).cmdl = s.cmdl := rfl
@[simp] theorem noteRead_program (a : Access) (d : BusData) : (noteRead a d s).program = s.program := rfl
@[simp] theorem noteRead_reads (a : Access) (d : BusData) : (noteRead a d s).reads = d :: s.reads := rfl
@[simp] theorem noteRead_awaiting (a : Access) (d : BusData) : (noteRead a d s).awaiting = (s.awaiting && !(a == statusRead && !s.status.busy)) := rfl
@[simp] theorem noteRead_delay (a : Access) (d : BusData) : (noteRead a d s).delay = s.delay := rfl
@[simp] theorem noteRead_latencies (a : Access) (d : BusData) : (noteRead a d s).latencies = s.latencies := rfl
@[simp] theorem noteRead_draws (a : Access) (d : BusData) : (noteRead a d s).draws = s.draws := rfl
@[simp] theorem noteRead_epoch (a : Access) (d : BusData) : (noteRead a d s).epoch = s.epoch := rfl

/-! ### `launch`: everything but the latch, STATUS, the window, the latency inputs and the draw counter -/

@[simp] theorem launch_status (w : Word) : (launch w s).status = statusPending := by
  unfold launch; split <;> rfl
@[simp] theorem launch_id (w : Word) : (launch w s).id = s.id := by
  unfold launch; split <;> rfl
@[simp] theorem launch_seq (w : Word) : (launch w s).seq = s.seq := by
  unfold launch; split <;> rfl
@[simp] theorem launch_plen (w : Word) : (launch w s).plen = s.plen := by
  unfold launch; split <;> rfl
@[simp] theorem launch_tsHi (w : Word) : (launch w s).tsHi = s.tsHi := by
  unfold launch; split <;> rfl
@[simp] theorem launch_tsLo (w : Word) : (launch w s).tsLo = s.tsLo := by
  unfold launch; split <;> rfl
@[simp] theorem launch_txLen (w : Word) : (launch w s).txLen = s.txLen := by
  unfold launch; split <;> rfl
@[simp] theorem launch_csumOff (w : Word) : (launch w s).csumOff = s.csumOff := by
  unfold launch; split <;> rfl
@[simp] theorem launch_csumRes (w : Word) : (launch w s).csumRes = s.csumRes := by
  unfold launch; split <;> rfl
@[simp] theorem launch_rxLen (w : Word) : (launch w s).rxLen = s.rxLen := by
  unfold launch; split <;> rfl
@[simp] theorem launch_rxIp (w : Word) : (launch w s).rxIp = s.rxIp := by
  unfold launch; split <;> rfl
@[simp] theorem launch_rxTc (w : Word) : (launch w s).rxTc = s.rxTc := by
  unfold launch; split <;> rfl
@[simp] theorem launch_rxIdseq (w : Word) : (launch w s).rxIdseq = s.rxIdseq := by
  unfold launch; split <;> rfl
@[simp] theorem launch_rxIcmplen (w : Word) : (launch w s).rxIcmplen = s.rxIcmplen := by
  unfold launch; split <;> rfl
@[simp] theorem launch_rxTsHi (w : Word) : (launch w s).rxTsHi = s.rxTsHi := by
  unfold launch; split <;> rfl
@[simp] theorem launch_rxTsLo (w : Word) : (launch w s).rxTsLo = s.rxTsLo := by
  unfold launch; split <;> rfl
@[simp] theorem launch_cfg (w : Word) : (launch w s).cfg = s.cfg := by
  unfold launch; split <;> rfl
@[simp] theorem launch_txb (w : Word) : (launch w s).txb = s.txb := by
  unfold launch; split <;> rfl
@[simp] theorem launch_rxb (w : Word) : (launch w s).rxb = s.rxb := by
  unfold launch; split <;> rfl
@[simp] theorem launch_cmdl (w : Word) : (launch w s).cmdl = w := by
  unfold launch; split <;> rfl
@[simp] theorem launch_program (w : Word) : (launch w s).program = s.program := by
  unfold launch; split <;> rfl
@[simp] theorem launch_reads (w : Word) : (launch w s).reads = s.reads := by
  unfold launch; split <;> rfl
@[simp] theorem launch_awaiting (w : Word) : (launch w s).awaiting = true := by
  unfold launch; split <;> rfl
@[simp] theorem launch_epoch (w : Word) : (launch w s).epoch = s.epoch := by
  unfold launch; split <;> rfl

/-! ### `tick`: only the delay -/

@[simp] theorem tick_status : (tick s).status = s.status := by
  unfold tick; split <;> rfl
@[simp] theorem tick_id : (tick s).id = s.id := by
  unfold tick; split <;> rfl
@[simp] theorem tick_seq : (tick s).seq = s.seq := by
  unfold tick; split <;> rfl
@[simp] theorem tick_plen : (tick s).plen = s.plen := by
  unfold tick; split <;> rfl
@[simp] theorem tick_tsHi : (tick s).tsHi = s.tsHi := by
  unfold tick; split <;> rfl
@[simp] theorem tick_tsLo : (tick s).tsLo = s.tsLo := by
  unfold tick; split <;> rfl
@[simp] theorem tick_txLen : (tick s).txLen = s.txLen := by
  unfold tick; split <;> rfl
@[simp] theorem tick_csumOff : (tick s).csumOff = s.csumOff := by
  unfold tick; split <;> rfl
@[simp] theorem tick_csumRes : (tick s).csumRes = s.csumRes := by
  unfold tick; split <;> rfl
@[simp] theorem tick_rxLen : (tick s).rxLen = s.rxLen := by
  unfold tick; split <;> rfl
@[simp] theorem tick_rxIp : (tick s).rxIp = s.rxIp := by
  unfold tick; split <;> rfl
@[simp] theorem tick_rxTc : (tick s).rxTc = s.rxTc := by
  unfold tick; split <;> rfl
@[simp] theorem tick_rxIdseq : (tick s).rxIdseq = s.rxIdseq := by
  unfold tick; split <;> rfl
@[simp] theorem tick_rxIcmplen : (tick s).rxIcmplen = s.rxIcmplen := by
  unfold tick; split <;> rfl
@[simp] theorem tick_rxTsHi : (tick s).rxTsHi = s.rxTsHi := by
  unfold tick; split <;> rfl
@[simp] theorem tick_rxTsLo : (tick s).rxTsLo = s.rxTsLo := by
  unfold tick; split <;> rfl
@[simp] theorem tick_cfg : (tick s).cfg = s.cfg := by
  unfold tick; split <;> rfl
@[simp] theorem tick_txb : (tick s).txb = s.txb := by
  unfold tick; split <;> rfl
@[simp] theorem tick_rxb : (tick s).rxb = s.rxb := by
  unfold tick; split <;> rfl
@[simp] theorem tick_cmdl : (tick s).cmdl = s.cmdl := by
  unfold tick; split <;> rfl
@[simp] theorem tick_program : (tick s).program = s.program := by
  unfold tick; split <;> rfl
@[simp] theorem tick_reads : (tick s).reads = s.reads := by
  unfold tick; split <;> rfl
@[simp] theorem tick_awaiting : (tick s).awaiting = s.awaiting := by
  unfold tick; split <;> rfl
@[simp] theorem tick_latencies : (tick s).latencies = s.latencies := by
  unfold tick; split <;> rfl
@[simp] theorem tick_draws : (tick s).draws = s.draws := by
  unfold tick; split <;> rfl
@[simp] theorem tick_epoch : (tick s).epoch = s.epoch := by
  unfold tick; split <;> rfl

/-! ### `applyReset` -/

@[simp] theorem applyReset_status : (applyReset s).status = State.reset.status := rfl
@[simp] theorem applyReset_id : (applyReset s).id = State.reset.id := rfl
@[simp] theorem applyReset_seq : (applyReset s).seq = State.reset.seq := rfl
@[simp] theorem applyReset_plen : (applyReset s).plen = State.reset.plen := rfl
@[simp] theorem applyReset_tsHi : (applyReset s).tsHi = State.reset.tsHi := rfl
@[simp] theorem applyReset_tsLo : (applyReset s).tsLo = State.reset.tsLo := rfl
@[simp] theorem applyReset_txLen : (applyReset s).txLen = State.reset.txLen := rfl
@[simp] theorem applyReset_csumOff : (applyReset s).csumOff = State.reset.csumOff := rfl
@[simp] theorem applyReset_csumRes : (applyReset s).csumRes = State.reset.csumRes := rfl
@[simp] theorem applyReset_rxLen : (applyReset s).rxLen = State.reset.rxLen := rfl
@[simp] theorem applyReset_rxIp : (applyReset s).rxIp = State.reset.rxIp := rfl
@[simp] theorem applyReset_rxTc : (applyReset s).rxTc = State.reset.rxTc := rfl
@[simp] theorem applyReset_rxIdseq : (applyReset s).rxIdseq = State.reset.rxIdseq := rfl
@[simp] theorem applyReset_rxIcmplen : (applyReset s).rxIcmplen = State.reset.rxIcmplen := rfl
@[simp] theorem applyReset_rxTsHi : (applyReset s).rxTsHi = State.reset.rxTsHi := rfl
@[simp] theorem applyReset_rxTsLo : (applyReset s).rxTsLo = State.reset.rxTsLo := rfl
@[simp] theorem applyReset_cfg : (applyReset s).cfg = s.cfg := rfl
@[simp] theorem applyReset_txb : (applyReset s).txb = State.reset.txb := rfl
@[simp] theorem applyReset_rxb : (applyReset s).rxb = State.reset.rxb := rfl
@[simp] theorem applyReset_cmdl : (applyReset s).cmdl = Config.cmdlAtReset (s.epoch + 1) := rfl
@[simp] theorem applyReset_program : (applyReset s).program = s.program := rfl
@[simp] theorem applyReset_reads : (applyReset s).reads = s.reads := rfl
@[simp] theorem applyReset_awaiting : (applyReset s).awaiting = State.reset.awaiting := rfl
@[simp] theorem applyReset_delay : (applyReset s).delay = State.reset.delay := rfl
@[simp] theorem applyReset_latencies : (applyReset s).latencies = s.latencies := rfl
@[simp] theorem applyReset_draws : (applyReset s).draws = s.draws := rfl
@[simp] theorem applyReset_epoch : (applyReset s).epoch = s.epoch + 1 := rfl

end Sys2Proof.Machine
end

