-- ==== Sys2Proof/Laws/Commands.lean ====
section
/-!
SUPPORT. What each command's shared operation can do, once per case, and what a step can be.
-/

namespace Sys2Proof.Machine

/-! ### CSUM, SETPLEN, ENCODE -/

theorem csum_inside {buf : Buf} {len : Half} {s : State} (h : s.csumOff.toNat + len.toNat ≤ bufSize s buf) :
    csum buf len s = complete { s with csumRes := checksum (bufByte buf s) s.csumOff.toNat len.toNat } :=
  if_neg (Nat.not_lt.2 h)

theorem csum_outside {buf : Buf} {len : Half} {s : State} (h : bufSize s buf < s.csumOff.toNat + len.toNat) :
    csum buf len s = raise .range s :=
  if_pos h

theorem setplen_inside {t : Half} {s : State} (h1 : 16 < t.toNat) (h2 : t.toNat < s.cfg.maxdg) :
    setplen t s = complete { s with plen := t - 16#16 } :=
  if_pos ⟨h1, h2⟩

theorem setplen_outside {t : Half} {s : State} (h : t.toNat ≤ 16 ∨ s.cfg.maxdg ≤ t.toNat) :
    setplen t s = raise .plenReject s :=
  if_neg (by omega)

/-- ENCODE answers a next state exactly where its message fits TXB, and then writes it. -/
theorem encodeOp_next_iff {s t : State} : encodeOp s = .next t ↔ totalSize s ≤ s.cfg.txbuf ∧ t = encodeRequest s := by
  unfold encodeOp
  split <;> rename_i h
  · simp [h, eq_comm]
  · simp [h]

theorem exec_encode {s : State} (h : totalSize s ≤ s.cfg.txbuf) : exec .encode s = .next (encodeRequest s) :=
  (encodeOp_next_iff (s := s)).2 ⟨h, rfl⟩

/-! ### The fields after ENCODE -/

@[simp] theorem encodeRequest_status (s : State) : (encodeRequest s).status = statusSuccess := by
  simp [encodeRequest]
@[simp] theorem encodeRequest_id (s : State) : (encodeRequest s).id = s.id := by
  simp [encodeRequest]
@[simp] theorem encodeRequest_seq (s : State) : (encodeRequest s).seq = s.seq := by
  simp [encodeRequest]
@[simp] theorem encodeRequest_plen (s : State) : (encodeRequest s).plen = s.plen := by
  simp [encodeRequest]
@[simp] theorem encodeRequest_tsHi (s : State) : (encodeRequest s).tsHi = s.tsHi := by
  simp [encodeRequest]
@[simp] theorem encodeRequest_tsLo (s : State) : (encodeRequest s).tsLo = s.tsLo := by
  simp [encodeRequest]
@[simp] theorem encodeRequest_txLen (s : State) : (encodeRequest s).txLen = BitVec.ofNat 16 (totalSize s) := by
  simp [encodeRequest]
@[simp] theorem encodeRequest_csumOff (s : State) : (encodeRequest s).csumOff = s.csumOff := by
  simp [encodeRequest]
@[simp] theorem encodeRequest_csumRes (s : State) : (encodeRequest s).csumRes = requestChecksum s := by
  simp [encodeRequest]
@[simp] theorem encodeRequest_rxLen (s : State) : (encodeRequest s).rxLen = s.rxLen := by
  simp [encodeRequest]
@[simp] theorem encodeRequest_rxIp (s : State) : (encodeRequest s).rxIp = s.rxIp := by
  simp [encodeRequest]
@[simp] theorem encodeRequest_rxTc (s : State) : (encodeRequest s).rxTc = s.rxTc := by
  simp [encodeRequest]
@[simp] theorem encodeRequest_rxIdseq (s : State) : (encodeRequest s).rxIdseq = s.rxIdseq := by
  simp [encodeRequest]
@[simp] theorem encodeRequest_rxIcmplen (s : State) : (encodeRequest s).rxIcmplen = s.rxIcmplen := by
  simp [encodeRequest]
@[simp] theorem encodeRequest_rxTsHi (s : State) : (encodeRequest s).rxTsHi = s.rxTsHi := by
  simp [encodeRequest]
@[simp] theorem encodeRequest_rxTsLo (s : State) : (encodeRequest s).rxTsLo = s.rxTsLo := by
  simp [encodeRequest]
@[simp] theorem encodeRequest_cfg (s : State) : (encodeRequest s).cfg = s.cfg := by
  simp [encodeRequest]
@[simp] theorem encodeRequest_rxb (s : State) : (encodeRequest s).rxb = s.rxb := by
  simp [encodeRequest]
@[simp] theorem encodeRequest_cmdl (s : State) : (encodeRequest s).cmdl = s.cmdl := by
  simp [encodeRequest]
@[simp] theorem encodeRequest_program (s : State) : (encodeRequest s).program = s.program := by
  simp [encodeRequest]
@[simp] theorem encodeRequest_reads (s : State) : (encodeRequest s).reads = s.reads := by
  simp [encodeRequest]
@[simp] theorem encodeRequest_awaiting (s : State) : (encodeRequest s).awaiting = s.awaiting := by
  simp [encodeRequest]
@[simp] theorem encodeRequest_delay (s : State) : (encodeRequest s).delay = s.delay := by
  simp [encodeRequest]
@[simp] theorem encodeRequest_latencies (s : State) : (encodeRequest s).latencies = s.latencies := by
  simp [encodeRequest]
@[simp] theorem encodeRequest_draws (s : State) : (encodeRequest s).draws = s.draws := by
  simp [encodeRequest]
@[simp] theorem encodeRequest_epoch (s : State) : (encodeRequest s).epoch = s.epoch := by
  simp [encodeRequest]

theorem encodeRequest_txb (s : State) :
    (encodeRequest s).txb =
      memSet (memSet (writeRequest s).txb 2 (hiByte (requestChecksum s))) 3 (loByte (requestChecksum s)) := by
  simp [encodeRequest]

/-! ### The message ENCODE leaves in TXB -/

theorem requestBytes_length (s : State) : (requestBytes s).length = totalSize s := by
  simp [requestBytes, requestHeader, timestampBytes, fillerBytes, totalSize]; omega

/-- TXB after the placeholder message is written. -/
theorem txByte_writeRequest (s : State) (i : Nat) :
    txByte (writeRequest s) i =
      if h : i < (requestBytes s).length then (requestBytes s)[i] else txByte s i := by
  simp only [txByte, writeRequest_txb, writeRequest_epoch, memLookup_memSetMany]
  by_cases h : i < (requestBytes s).length
  · rw [if_pos (by omega), dif_pos h, Nat.sub_zero, List.getElem?_eq_getElem h]; rfl
  · rw [if_neg (by omega), dif_neg h]

/-- TXB after ENCODE: the placeholder message with its checksum at bytes 2 and 3. -/
theorem txByte_encodeRequest (s : State) (i : Nat) :
    txByte (encodeRequest s) i =
      if i = 3 then loByte (requestChecksum s) else if i = 2 then hiByte (requestChecksum s)
      else txByte (writeRequest s) i := by
  have h : txByte (encodeRequest s) i =
      txByte (setTx (setTx (writeRequest s) 2 (hiByte (requestChecksum s))) 3 (loByte (requestChecksum s))) i := by
    simp [txByte, encodeRequest_txb]
  rw [h, txByte_setTx, txByte_setTx]
  split
  · subst_vars; simp
  · split
    · subst_vars; simp
    · rw [if_neg (by omega), if_neg (by omega)]

/-! ### The message's length and parts -/

theorem totalSize_le {s : State} (h : totalSize s ≤ s.cfg.txbuf) : totalSize s ≤ 65535 := by
  have := s.cfg.maxdg_le; simp only [Params.txbuf] at h; omega

theorem encodeRequest_txLen_toNat {s : State} (h : totalSize s ≤ s.cfg.txbuf) :
    (encodeRequest s).txLen.toNat = totalSize s := by
  have := totalSize_le h
  rw [encodeRequest_txLen, BitVec.toNat_ofNat]; omega

theorem txByte_writeRequest_header (s : State) {i : Nat} (h : i < 8) :
    txByte (writeRequest s) i = (requestHeader 0 s.id s.seq)[i]'(by simpa [requestHeader] using h) := by
  rw [txByte_writeRequest, dif_pos (by rw [requestBytes_length]; simp [totalSize]; omega)]
  simp only [requestBytes]
  rw [List.getElem_append_left, List.getElem_append_left]
  simp [requestHeader, timestampBytes]; omega

theorem txByte_writeRequest_timestamp (s : State) {k : Nat} (h : k < 8) :
    txByte (writeRequest s) (8 + k) = tsByte s.tsHi s.tsLo k := by
  rw [txByte_writeRequest, dif_pos (by rw [requestBytes_length]; simp [totalSize]; omega)]
  simp only [requestBytes]
  rw [List.getElem_append_left, List.getElem_append_right]
  · simp [requestHeader, timestampBytes]
  · simp [requestHeader]
  · simp [requestHeader, timestampBytes]; omega

theorem txByte_writeRequest_filler (s : State) {i : Nat} (h : i < s.plen.toNat) :
    txByte (writeRequest s) (16 + i) = fillerByte i := by
  rw [txByte_writeRequest, dif_pos (by rw [requestBytes_length]; simp [totalSize]; omega)]
  simp only [requestBytes]
  rw [List.getElem_append_right]
  · simp [requestHeader, timestampBytes, fillerBytes]
  · simp [requestHeader, timestampBytes]

theorem txByte_writeRequest_past (s : State) {i : Nat} (h : totalSize s ≤ i) :
    txByte (writeRequest s) i = txByte s i := by
  rw [txByte_writeRequest, dif_neg (by rw [requestBytes_length]; omega)]

/-! ### DECODE -/

theorem decode_rxlenRange {s : State} (h : s.cfg.rxbuf < s.rxLen.toNat) :
    decodeDatagram s = raise .rxlenRange s :=
  if_pos h

theorem decode_rejects {s : State} (h : s.rxLen.toNat ≤ s.cfg.rxbuf)
    (h8 : s.rxLen.toNat < headerLen (parsedIhl s) + 8) :
    decodeDatagram s = { rejectDatagram (parsedIhl s) s with draws := s.draws + decodeReads } := by
  unfold decodeDatagram
  rw [if_neg (Nat.not_lt.2 h)]
  dsimp only
  rw [if_pos (by omega)]

theorem decode_accepts {s : State} (h : s.rxLen.toNat ≤ s.cfg.rxbuf)
    (h8 : headerLen (parsedIhl s) + 8 ≤ s.rxLen.toNat) :
    decodeDatagram s = { acceptDatagram (parsedIhl s) s with draws := s.draws + decodeReads } := by
  unfold decodeDatagram
  rw [if_neg (Nat.not_lt.2 h)]
  dsimp only
  rw [if_neg (by omega)]

theorem headerLen_lt (ihl : BitVec 4) : headerLen ihl ≤ 60 := by
  have := ihl.isLt; simp only [headerLen]; omega

theorem parsedIp_hlen_toNat (ihl : BitVec 4) (ttl : Byte) : (parsedIp ihl ttl).hlen.toNat = headerLen ihl := by
  have := headerLen_lt ihl
  simp only [parsedIp, BitVec.toNat_ofNat]
  omega

/-- A byte below RX_LEN is a received byte. -/
theorem rxPeek_received {s : State} {i : Nat} (k : Nat) (h : i < s.rxLen.toNat) : rxPeek s i k = rxByte s i :=
  if_pos h

/-- A byte at or past RX_LEN is drawn. -/
theorem rxPeek_drawn {s : State} {i : Nat} (k : Nat) (h : s.rxLen.toNat ≤ i) :
    rxPeek s i k = Config.draw8 (s.draws + k) :=
  if_neg (Nat.not_lt.2 h)

/-- With a received byte 0, IHL is its low nibble. -/
theorem parsedIhl_received {s : State} (h : 0 < s.rxLen.toNat) : parsedIhl s = (rxByte s 0).extractLsb' 0 4 := by
  rw [parsedIhl, rxPeek_received 0 h]

theorem headerLen_received {s : State} (h : 0 < s.rxLen.toNat) :
    headerLen (parsedIhl s) = 4 * ((rxByte s 0).toNat % 16) := by
  rw [headerLen, parsedIhl_received h, BitVec.extractLsb'_toNat]; simp

/-- DECODE changes STATUS, the decode result registers and the draw counter, and nothing else. -/
theorem decodeDatagram_frame (s : State) :
    decodeDatagram s =
      { s with
        status := (decodeDatagram s).status, rxIp := (decodeDatagram s).rxIp, rxTc := (decodeDatagram s).rxTc
        rxIdseq := (decodeDatagram s).rxIdseq, rxIcmplen := (decodeDatagram s).rxIcmplen
        rxTsHi := (decodeDatagram s).rxTsHi, rxTsLo := (decodeDatagram s).rxTsLo
        draws := (decodeDatagram s).draws } := by
  by_cases h : s.cfg.rxbuf < s.rxLen.toNat
  · rw [decode_rxlenRange h]; rfl
  · by_cases h8 : s.rxLen.toNat < headerLen (parsedIhl s) + 8
    · rw [decode_rejects (by omega) h8]; rfl
    · rw [decode_accepts (by omega) (by omega)]; rfl

/-- An accepted echo reply's timestamp registers hold the bytes RTS[0] to RTS[7]. -/
theorem tsByte_acceptDatagram {ihl : BitVec 4} {s : State} (he : echoFlag (rxPeek s (headerLen ihl) 1) = true) :
    ∀ k, k < 8 → tsByte (acceptDatagram ihl s).rxTsHi (acceptDatagram ihl s).rxTsLo k = rtsByte s (headerLen ihl) k := by
  intro k hk
  simp only [acceptDatagram, complete, he, if_true]
  rw [tsByte_be32 _ _ _ _ _ _ _ _ k hk]
  interval_cases k <;> rfl

/-! ### A step -/

theorem step_due {s : State} (hb : s.status.busy = true) (hd : s.delay = 0) : step s = engineStep s := by
  simp [step, advance, engineDue, hb, hd]

theorem step_not_due {s : State} (h : s.status.busy = false ∨ 0 < s.delay) : step s = inputStep (tick s) := by
  have : engineDue s = false := by
    rcases h with h | h
    · simp [engineDue, h]
    · simp [engineDue, show ¬ s.delay = 0 by omega]
  simp [step, advance, this]

theorem engineStep_ok {s : State} {i : Instr} (h : decodeCmd s.cmdl = .ok i) : engineStep s = exec i s := by
  simp only [engineStep, h]

theorem engineStep_error {s : State} {e : Illegal} (h : decodeCmd s.cmdl = .error e) :
    engineStep s = .next (raise .illegalCmd s) := by
  simp only [engineStep, h]

/-! ### A host access -/

/-- A word-class or byte-class access that R82 allows has its MemRead. -/
theorem memRead_legal {s : State} {off : Offset} {w : Width} (h : legalAccess off w = true) :
    memRead s off w = .ok (if wordClass off then .word (wordRead s off) else .byte (byteRead s off)) :=
  if_pos h

theorem hostAccess_illegal {s : State} {a : Access} (h : legalAccess a.off a.width = false) :
    hostAccess a s = .fault .busError := by
  simp [hostAccess, h]

theorem hostAccess_hazard {s : State} {a : Access} (hl : legalAccess a.off a.width = true)
    (hw : hazardWindow s = true) (ha : a ≠ statusRead) : hostAccess a s = .fault .hazard := by
  simp [hostAccess, hl, hw, ha]

theorem hostAccess_status (s : State) :
    hostAccess statusRead s = .next (noteRead statusRead (.word (statusWord s.status)) s) := by
  have h : hostAccess statusRead s = performAccess statusRead s := by
    simp [hostAccess, show legalAccess statusRead.off statusRead.width = true by decide]
  rw [h]
  show (match memRead s (regOffset .status) .word with
    | .ok d => Host.Outcome.next (noteRead statusRead d s)
    | .error f => Host.Outcome.fault f) = _
  rw [memRead_legal (by decide)]
  rfl

theorem hostAccess_read {s : State} {off : Offset} {w : Width} (hl : legalAccess off w = true)
    (hw : hazardWindow s = false) :
    hostAccess (.read off w) s =
      .next (noteRead (.read off w) (if wordClass off then .word (wordRead s off) else .byte (byteRead s off)) s) := by
  simp [hostAccess, performAccess, Access.off, Access.width, hl, hw, memRead_legal hl]

/-- A legal write outside the window: a word write in the word class, a byte write in the byte class. -/
theorem hostAccess_write {s t : State} {off : Offset} {d : BusData} (hw : hazardWindow s = false)
    (hm : memWrite s off d = .ok t) : hostAccess (.write off d) s = .next t := by
  have hl : legalAccess off d.width = true := by
    unfold memWrite at hm; split at hm
    · assumption
    · cases hm
  simp [hostAccess, performAccess, Access.off, Access.width, hl, hw, hm]

/-- A buffer byte that a byte-class offset reaches lies in its buffer. -/
theorem windowAt_lt {s : State} {off : Offset} {b : Buf} {i : Nat} (h : windowAt s off = some (b, i)) :
    i < bufSize s b := by
  simp only [windowAt] at h
  split_ifs at h <;> simp only [Option.some.injEq, Prod.mk.injEq] at h <;> obtain ⟨rfl, rfl⟩ := h <;> assumption

/-- What a MemWrite that is no bus error leaves: one register or buffer byte changed, a command launched, or nothing. -/
theorem memWrite_cases {s t : State} {off : Offset} {d : BusData} (h : memWrite s off d = .ok t) :
    (∃ v, d = .word v ∧ off = regOffset .cmd ∧ t = launch v s) ∨
    (∃ i v, i < s.cfg.txbuf ∧ t = setTx s i v) ∨ (∃ i v, i < s.cfg.rxbuf ∧ t = setRx s i v) ∨
    (∃ id seq tsHi tsLo csumOff rxLen, t =
      { s with id := id, seq := seq, tsHi := tsHi, tsLo := tsLo, csumOff := csumOff, rxLen := rxLen }) := by
  unfold memWrite at h
  split at h
  case isFalse => cases h
  cases h
  cases d with
  | half v => exact .inr (.inr (.inr ⟨_, _, _, _, _, _, rfl⟩))
  | byte v =>
    simp only [byteWrite]
    split
    · rename_i i hi
      exact .inr (.inl ⟨i, v, windowAt_lt hi, rfl⟩)
    · rename_i i hi
      exact .inr (.inr (.inl ⟨i, v, windowAt_lt hi, rfl⟩))
    · exact .inr (.inr (.inr ⟨_, _, _, _, _, _, rfl⟩))
  | word v =>
    simp only [wordWrite]
    split
    · rename_i r hr
      have ho : regOffset r = off := by
        have := List.find?_some hr
        simpa using this
      cases r
      case cmd => exact .inl ⟨v, rfl, ho.symm, rfl⟩
      all_goals exact .inr (.inr (.inr ⟨_, _, _, _, _, _, rfl⟩))
    · exact .inr (.inr (.inr ⟨_, _, _, _, _, _, rfl⟩))

end Sys2Proof.Machine
end

