-- ==== Sys2Proof/Laws/Encoding.lean ====
section
/-!
SUPPORT. The fields of a command word: reading them back, a word from its fields, and the match and mask tests of the
opcode map (30_encoding.md R125) as tests on fields.
-/

namespace Sys2Proof

/-- Every word is its four fields (30_encoding.md R120). -/
theorem word_of_fields (w : Word) :
    w = immField w ++ rsvField w ++ BitVec.ofBool (bufField w) ++ opField w := by
  apply BitVec.eq_of_getLsbD_eq
  intro i hi
  simp only [immField, rsvField, bufField, opField, BitVec.getLsbD_append, BitVec.getLsbD_extractLsb',
    BitVec.getLsbD_ofBool]
  by_cases h4 : i < 4
  · simp [h4]
  · by_cases h5 : i = 4
    · subst h5; simp
    · by_cases h16 : i < 16
      · simp [h4, show ¬ i - 4 < 1 by omega, show i - 4 - 1 < 11 by omega, show 5 + (i - 4 - 1) = i by omega]
      · simp [h4, show ¬ i - 4 < 1 by omega, show ¬ i - 4 - 1 < 11 by omega, show i - 4 - 1 - 11 < 16 by omega,
          show 16 + (i - 4 - 1 - 11) = i by omega]

/-- Words are equal exactly when their fields are. -/
theorem word_eq_iff (w v : Word) :
    w = v ↔ immField w = immField v ∧ rsvField w = rsvField v ∧ bufField w = bufField v ∧ opField w = opField v := by
  constructor
  · rintro rfl; exact ⟨rfl, rfl, rfl, rfl⟩
  · rintro ⟨h1, h2, h3, h4⟩
    rw [word_of_fields w, word_of_fields v, h1, h2, h3, h4]

theorem immField_and (w m : Word) : immField (w &&& m) = immField w &&& immField m := by
  simp [immField, BitVec.extractLsb'_and]

theorem rsvField_and (w m : Word) : rsvField (w &&& m) = rsvField w &&& rsvField m := by
  simp [rsvField, BitVec.extractLsb'_and]

theorem bufField_and (w m : Word) : bufField (w &&& m) = (bufField w && bufField m) := by
  simp [bufField]

theorem opField_and (w m : Word) : opField (w &&& m) = opField w &&& opField m := by
  simp [opField, BitVec.extractLsb'_and]

/-! ### The match and mask tests (R125) -/

theorem csum_test (w : Word) :
    w &&& 0x0000FFEF#32 = 0x00000001#32 ↔ rsvField w = 0#11 ∧ opField w = 1#4 := by
  rw [word_eq_iff, immField_and, rsvField_and, bufField_and, opField_and]
  rw [show immField 0x0000FFEF#32 = 0#16 by decide, show rsvField 0x0000FFEF#32 = BitVec.allOnes 11 by decide,
    show bufField 0x0000FFEF#32 = false by decide, show opField 0x0000FFEF#32 = BitVec.allOnes 4 by decide,
    show immField 0x00000001#32 = 0#16 by decide, show rsvField 0x00000001#32 = 0#11 by decide,
    show bufField 0x00000001#32 = false by decide, show opField 0x00000001#32 = 1#4 by decide,
    BitVec.and_allOnes, BitVec.and_allOnes]
  simp

theorem setplen_test (w : Word) :
    w &&& 0x0000FFFF#32 = 0x00000004#32 ↔ rsvField w = 0#11 ∧ bufField w = false ∧ opField w = 4#4 := by
  rw [word_eq_iff, immField_and, rsvField_and, bufField_and, opField_and]
  rw [show immField 0x0000FFFF#32 = 0#16 by decide, show rsvField 0x0000FFFF#32 = BitVec.allOnes 11 by decide,
    show bufField 0x0000FFFF#32 = true by decide, show opField 0x0000FFFF#32 = BitVec.allOnes 4 by decide,
    show immField 0x00000004#32 = 0#16 by decide, show rsvField 0x00000004#32 = 0#11 by decide,
    show bufField 0x00000004#32 = false by decide, show opField 0x00000004#32 = 4#4 by decide,
    BitVec.and_allOnes, BitVec.and_allOnes]
  simp

theorem encode_test (w : Word) :
    w = 0x00000002#32 ↔ immField w = 0#16 ∧ rsvField w = 0#11 ∧ bufField w = false ∧ opField w = 2#4 := by
  rw [word_eq_iff]; exact Iff.rfl

theorem decode_test (w : Word) :
    w = 0x00000003#32 ↔ immField w = 0#16 ∧ rsvField w = 0#11 ∧ bufField w = false ∧ opField w = 3#4 := by
  rw [word_eq_iff]; exact Iff.rfl

theorem seqinc_test (w : Word) :
    w = 0x00000005#32 ↔ immField w = 0#16 ∧ rsvField w = 0#11 ∧ bufField w = false ∧ opField w = 5#4 := by
  rw [word_eq_iff]; exact Iff.rfl

/-! ### The fields of an encoded word -/

/-- One bit of a command word. -/
theorem getLsbD_commandWord (imm : Half) (b : Bool) (op : BitVec 4) (i : Nat) :
    (commandWord imm b op).getLsbD i =
      if i < 4 then op.getLsbD i else if i = 4 then b else if i < 16 then false else imm.getLsbD (i - 16) := by
  simp only [commandWord, BitVec.getLsbD_append, BitVec.getLsbD_ofBool]
  by_cases h4 : i < 4
  · simp [h4]
  · by_cases h5 : i = 4
    · subst h5; simp
    · by_cases h16 : i < 16
      · simp [h4, h5, h16, show ¬ i - 4 < 1 by omega, show i - 4 - 1 < 11 by omega]
      · simp [h4, h5, h16, show ¬ i - 4 < 1 by omega, show ¬ i - 4 - 1 < 11 by omega,
          show i - 4 - 1 - 11 = i - 16 by omega]

@[simp] theorem opField_commandWord (imm : Half) (b : Bool) (op : BitVec 4) : opField (commandWord imm b op) = op := by
  apply BitVec.eq_of_getLsbD_eq
  intro i hi
  rw [opField, BitVec.getLsbD_extractLsb', getLsbD_commandWord]
  simp [hi]

@[simp] theorem bufField_commandWord (imm : Half) (b : Bool) (op : BitVec 4) :
    bufField (commandWord imm b op) = b := by
  rw [bufField, getLsbD_commandWord]; rfl

@[simp] theorem rsvField_commandWord (imm : Half) (b : Bool) (op : BitVec 4) :
    rsvField (commandWord imm b op) = 0#11 := by
  apply BitVec.eq_of_getLsbD_eq
  intro i hi
  rw [rsvField, BitVec.getLsbD_extractLsb', getLsbD_commandWord]
  simp [show ¬ 5 + i < 4 by omega, show ¬ 5 + i = 4 by omega, show 5 + i < 16 by omega]

@[simp] theorem immField_commandWord (imm : Half) (b : Bool) (op : BitVec 4) :
    immField (commandWord imm b op) = imm := by
  apply BitVec.eq_of_getLsbD_eq
  intro i hi
  rw [immField, BitVec.getLsbD_extractLsb', getLsbD_commandWord]
  simp [hi, show ¬ 16 + i < 4 by omega, show ¬ 16 + i = 4 by omega]

/-- A word with RSV = 0 is the command word of its fields. -/
theorem commandWord_fields (w : Word) (h : rsvField w = 0#11) :
    commandWord (immField w) (bufField w) (opField w) = w := by
  conv_rhs => rw [word_of_fields w, h]
  rfl

end Sys2Proof
end

