-- ==== Sys2Proof/Laws/PerInstr.lean ====
section
/-!
SUPPORT. What holds of every command as syntax, one lemma per constructor: its word is none of the illegal ones of
30_encoding.md R127, and it matches its row of the opcode map (R125).
-/

namespace Sys2Proof.Laws

/-- The command's word is a legal one. -/
def LegalWord.Statement (i : Instr) : Prop := commandWordOk (encode i) = true

theorem LegalWord.csum (buf : Buf) (len : Half) : LegalWord.Statement (.csum buf len) := by
  simp [LegalWord.Statement, commandWordOk, opcodeOk, reservedOk, bufOk, immOk, encode]

theorem LegalWord.encode : LegalWord.Statement .encode := by
  simp [LegalWord.Statement, commandWordOk, opcodeOk, reservedOk, bufOk, immOk, Sys2Proof.encode]

theorem LegalWord.decode : LegalWord.Statement .decode := by
  simp [LegalWord.Statement, commandWordOk, opcodeOk, reservedOk, bufOk, immOk, Sys2Proof.encode]

theorem LegalWord.setplen (t : Half) : LegalWord.Statement (.setplen t) := by
  simp [LegalWord.Statement, commandWordOk, opcodeOk, reservedOk, bufOk, immOk, Sys2Proof.encode]

theorem LegalWord.seqinc : LegalWord.Statement .seqinc := by
  simp [LegalWord.Statement, commandWordOk, opcodeOk, reservedOk, bufOk, immOk, Sys2Proof.encode]

/-- The command's word matches its row's match and mask (R125). -/
def MatchesRow.Statement (i : Instr) : Prop :=
  match i with
  | .csum _ _ => Sys2Proof.encode i &&& 0x0000FFEF#32 = 0x00000001#32
  | .encode => Sys2Proof.encode i &&& 0xFFFFFFFF#32 = 0x00000002#32
  | .decode => Sys2Proof.encode i &&& 0xFFFFFFFF#32 = 0x00000003#32
  | .setplen _ => Sys2Proof.encode i &&& 0x0000FFFF#32 = 0x00000004#32
  | .seqinc => Sys2Proof.encode i &&& 0xFFFFFFFF#32 = 0x00000005#32

theorem MatchesRow.csum (buf : Buf) (len : Half) : MatchesRow.Statement (.csum buf len) :=
  (csum_test _).2 ⟨by simp [Sys2Proof.encode], by simp [Sys2Proof.encode]⟩

theorem MatchesRow.encode : MatchesRow.Statement .encode := by
  show Sys2Proof.encode .encode &&& 0xFFFFFFFF#32 = 0x00000002#32
  decide

theorem MatchesRow.decode : MatchesRow.Statement .decode := by
  show Sys2Proof.encode .decode &&& 0xFFFFFFFF#32 = 0x00000003#32
  decide

theorem MatchesRow.setplen (t : Half) : MatchesRow.Statement (.setplen t) :=
  (setplen_test _).2 ⟨by simp [Sys2Proof.encode], by simp [Sys2Proof.encode], by simp [Sys2Proof.encode]⟩

theorem MatchesRow.seqinc : MatchesRow.Statement .seqinc := by
  show Sys2Proof.encode .seqinc &&& 0xFFFFFFFF#32 = 0x00000005#32
  decide

end Sys2Proof.Laws
end

