-- ==== Sys2Proof/Laws/Step.lean ====
section
/-!
SUPPORT. What a step can be, said once: the outcomes of a command, of an engine step and of a host access, each as a case
list; and how the invariant follows field by field.
-/

namespace Sys2Proof.Machine

/-! ### The outcomes -/

/-- Every next state a command can answer. -/
theorem exec_cases {i : Instr} {s t : State} (h : exec i s = .next t) :
    (∃ b l, i = .csum b l ∧ (t = raise .range s ∨ ∃ c, t = complete { s with csumRes := c })) ∨
    (i = .encode ∧ totalSize s ≤ s.cfg.txbuf ∧ t = encodeRequest s) ∨
    (i = .decode ∧
      (t = raise .rxlenRange s ∨
        (s.rxLen.toNat ≤ s.cfg.rxbuf ∧ s.rxLen.toNat < headerLen (parsedIhl s) + 8 ∧
          t = { rejectDatagram (parsedIhl s) s with draws := s.draws + decodeReads }) ∨
        (s.rxLen.toNat ≤ s.cfg.rxbuf ∧ headerLen (parsedIhl s) + 8 ≤ s.rxLen.toNat ∧
          t = { acceptDatagram (parsedIhl s) s with draws := s.draws + decodeReads }))) ∨
    (∃ n, i = .setplen n ∧
      (t = raise .plenReject s ∨
        (16 < n.toNat ∧ n.toNat < s.cfg.maxdg ∧ t = complete { s with plen := n - 16#16 }))) ∨
    (i = .seqinc ∧ t = complete { s with seq := s.seq + 1#16 }) := by
  cases i with
  | csum b l =>
    refine .inl ⟨b, l, rfl, ?_⟩
    have e : exec (.csum b l) s = .next (csum b l s) := rfl
    rw [e] at h
    by_cases hh : s.csumOff.toNat + l.toNat ≤ bufSize s b
    · rw [csum_inside hh] at h; cases h; exact .inr ⟨_, rfl⟩
    · rw [csum_outside (by omega)] at h; cases h; exact .inl rfl
  | encode =>
    obtain ⟨a, b⟩ := encodeOp_next_iff.1 (show encodeOp s = .next t from h)
    exact .inr (.inl ⟨rfl, a, b⟩)
  | decode =>
    refine .inr (.inr (.inl ⟨rfl, ?_⟩))
    have e : exec .decode s = .next (decodeDatagram s) := rfl
    rw [e] at h
    by_cases hr : s.cfg.rxbuf < s.rxLen.toNat
    · rw [decode_rxlenRange hr] at h; cases h; exact .inl rfl
    · by_cases h8 : s.rxLen.toNat < headerLen (parsedIhl s) + 8
      · rw [decode_rejects (by omega) h8] at h; cases h; exact .inr (.inl ⟨by omega, h8, rfl⟩)
      · rw [decode_accepts (by omega) (by omega)] at h; cases h; exact .inr (.inr ⟨by omega, by omega, rfl⟩)
  | setplen n =>
    refine .inr (.inr (.inr (.inl ⟨n, rfl, ?_⟩)))
    have e : exec (.setplen n) s = .next (setplen n s) := rfl
    rw [e] at h
    by_cases hh : 16 < n.toNat ∧ n.toNat < s.cfg.maxdg
    · rw [setplen_inside hh.1 hh.2] at h; cases h; exact .inr ⟨hh.1, hh.2, rfl⟩
    · rw [setplen_outside (by omega)] at h; cases h; exact .inl rfl
  | seqinc => cases h; exact .inr (.inr (.inr (.inr ⟨rfl, rfl⟩)))

/-- An engine step is exec of the decoded command, or raises ILLEGAL_CMD. -/
theorem engineStep_cases {s t : State} (h : engineStep s = .next t) :
    (∃ i, decodeCmd s.cmdl = .ok i ∧ exec i s = .next t) ∨ t = raise .illegalCmd s := by
  unfold engineStep at h
  split at h
  · exact .inl ⟨_, by assumption, h⟩
  · cases h; exact .inr rfl

/-- Either the engine step is due, or the next input is. -/
theorem due_or_not (s : State) : (s.status.busy = true ∧ s.delay = 0) ∨ (s.status.busy = false ∨ 0 < s.delay) := by
  cases s.status.busy <;> simp; omega

/-- Every next state a host access can answer. -/
theorem hostAccess_cases {a : Access} {s t : State} (h : hostAccess a s = .next t) :
    (a = statusRead ∧ t = noteRead statusRead (.word (statusWord s.status)) s) ∨
    (hazardWindow s = false ∧ legalAccess a.off a.width = true ∧ ∃ d, t = noteRead a d s) ∨
    (hazardWindow s = false ∧ legalAccess a.off a.width = true ∧
      ∃ v, a = .write (regOffset .cmd) (.word v) ∧ t = launch v s) ∨
    (hazardWindow s = false ∧ legalAccess a.off a.width = true ∧ isCmdWrite a = false ∧
      ((∃ i v, i < s.cfg.txbuf ∧ t = setTx s i v) ∨ (∃ i v, i < s.cfg.rxbuf ∧ t = setRx s i v) ∨
        (∃ id seq tsHi tsLo csumOff rxLen, t =
          { s with id := id, seq := seq, tsHi := tsHi, tsLo := tsLo, csumOff := csumOff, rxLen := rxLen }))) := by
  by_cases hs : a = statusRead
  · subst hs; rw [hostAccess_status] at h; cases h; exact .inl ⟨rfl, rfl⟩
  right
  by_cases hl : legalAccess a.off a.width = true
  swap
  · rw [hostAccess_illegal (by simpa using hl)] at h; cases h
  by_cases hz : hazardWindow s = true
  · rw [hostAccess_hazard hl hz hs] at h; cases h
  have hz : hazardWindow s = false := by simpa using hz
  cases a with
  | read off w => rw [hostAccess_read (by exact hl) hz] at h; cases h; exact .inl ⟨hz, hl, _, rfl⟩
  | write off d =>
    right
    obtain ⟨u, hu⟩ : ∃ u, memWrite s off d = .ok u := by
      unfold memWrite; rw [if_pos (by exact hl)]; exact ⟨_, rfl⟩
    rw [hostAccess_write hz hu] at h
    cases h
    by_cases hc : isCmdWrite (.write off d) = true
    · left
      cases d with
      | word v =>
        obtain rfl : off = regOffset .cmd := by simpa [isCmdWrite] using hc
        refine ⟨hz, hl, v, rfl, ?_⟩
        rw [show memWrite s (regOffset .cmd) (.word v) = .ok (launch v s) from rfl] at hu
        cases hu; rfl
      | byte v => simp [isCmdWrite] at hc
      | half v => simp [isCmdWrite] at hc
    · right
      refine ⟨hz, hl, by simpa using hc, ?_⟩
      rcases memWrite_cases hu with ⟨v, rfl, rfl, rfl⟩ | h | h | h
      · simp [isCmdWrite] at hc
      · exact .inl h
      · exact .inr (.inl h)
      · exact .inr (.inr h)

/-- Outside the window a read only adds to the record. -/
theorem noteRead_quiet {s : State} (a : Access) (d : BusData) (h : s.awaiting = false) :
    noteRead a d s = { s with reads := d :: s.reads } := by
  apply State.ext <;> simp [h]

/-- A run of one step more. -/
theorem run_succ {s t : State} {k : Nat} (h : step s = .next t) :
    Host.Core.run core (k + 1) s = Host.Core.run core k t := by
  have h : core.step s = .next t := h
  simp only [Host.Core.run, h]

/-! ### The invariant, field by field -/

/-- The invariant reads none of the other fields. -/
theorem stateInv_congr {s t : State} (h : StateInv s) (h1 : t.plen = s.plen) (h2 : t.cfg = s.cfg)
    (h3 : t.txb = s.txb) (h4 : t.rxb = s.rxb) (h5 : t.status = s.status)
    (h6 : s.status.busy = true → t.awaiting = true) (h6' : t.awaiting = true → s.awaiting = true)
    (h7 : t.rxIp = s.rxIp) (h8 : t.rxTc = s.rxTc) (h9 : t.rxIcmplen = s.rxIcmplen) (h10 : t.rxTsHi = s.rxTsHi)
    (h11 : t.rxTsLo = s.rxTsLo) (h12 : t.txLen = s.txLen) : StateInv t := by
  obtain ⟨a1, a2, a3, a4, a5, a6, a7, a8, a9, a10, a11, a12, a13, a14, a15⟩ := h
  constructor <;> simp only [h1, h2, h3, h4, h5, h7, h8, h9, h10, h11, h12] <;> (try assumption)
  · exact fun hb => ⟨(a5 hb).1, h6 hb⟩
  · exact fun hb => a6 (h6' hb)

/-- A performed command's STATUS keeps the invariant. -/
theorem stateInv_status {s : State} (h : StateInv s) {st : Status} (hb : st.busy = false) (hd : st.done = true)
    (he : st.err = true ↔ st.ecode ≠ .none) : StateInv { s with status := st } := by
  obtain ⟨a1, a2, a3, a4, a5, a6, a7, a8, a9, a10, a11, a12, a13, a14, a15⟩ := h
  constructor <;> simp_all

/-- A CMD write keeps the invariant. -/
theorem stateInv_launch {s : State} (w : Word) (h : StateInv s) : StateInv (launch w s) := by
  obtain ⟨a1, a2, a3, a4, a5, a6, a7, a8, a9, a10, a11, a12, a13, a14, a15⟩ := h
  constructor <;> simp <;> (try assumption) <;> simp [statusPending]

/-- A host that may still be in the window keeps the rules outside it too. -/
theorem disciplined_mono : ∀ {p : List Input}, disciplined true p = true → disciplined false p = true
  | [], _ => rfl
  | .wait :: _, h => h
  | .reset :: _, h => h
  | .access a :: p, h => by
    simp only [disciplined, Bool.and_eq_true, beq_iff_eq] at h
    obtain ⟨rfl, h⟩ := h
    simp only [disciplined, Bool.and_eq_true]
    exact ⟨by decide, by rw [show isCmdWrite statusRead = false from rfl]; exact disciplined_mono h⟩

end Sys2Proof.Machine
end

