-- ==== Sys2Proof/Tests/Slice0.lean ====
section
/-!
SUPPORT. Small checks of the model against values the spec gives: command words of 30_encoding.md and vectors of
95_test_vectors.md (its parameters, P_MAXDG = P_RXBUF = 1500), and for each obligation with hypotheses a state that meets
them. Each check is about one step.
-/

open Sys2Proof Sys2Proof.Machine

/-! ### The bench: a reset block with the vectors' parameters -/

/-- The parameters of the test vectors. -/
def benchParams : Params := ⟨1500, 1500, by decide, by decide, by decide, by decide⟩

/-- The block after reset with those parameters, and a CMDL of 0. -/
def bench : State := { State.reset with cfg := benchParams, cmdl := 0 }

/-- Bytes stored from index 0 on. -/
def bytesAt0 (bs : List Byte) : Memory := memSetMany [] 0 bs

/-- The first 36 bytes of D1 (95_test_vectors.md, DECODE). -/
def d1Bytes : List Byte :=
  [0x45, 0x00, 0x00, 0x44, 0x00, 0x00, 0x00, 0x00, 0x37, 0x01, 0x43, 0xDD, 0x5D, 0xB8, 0xD8, 0x22] ++
    [0x0A, 0x00, 0x00, 0x02, 0x00, 0x00, 0xE9, 0xB3, 0x12, 0x34, 0x00, 0x00, 0x01, 0x02, 0x03, 0x04] ++
    [0x05, 0x06, 0x07, 0x08]

/-- D1's first `n` bytes received. -/
def received (n : Half) : State := { bench with rxb := bytesAt0 d1Bytes, rxLen := n }

/-- The operands of V-EN-7: a message of 18 bytes. -/
def request7 : State := { bench with id := 0xABCD, seq := 0x0007, tsHi := 0, tsLo := 0xDEADBEEF, plen := 2 }

/-- TXB as V-CS-1 to V-CS-4 start with. -/
def region4 (off : Half) : State := { bench with txb := bytesAt0 [0xAA, 0x12, 0x34, 0xBB], csumOff := off }

/-- A command latched and due, as a CMD write leaves it. -/
def latched (w : Word) : State := placeCommand w bench

/-! ### Ill-formed words (30_encoding.md R127), one per check -/

theorem test_opcode_zero : opcodeOk 0x00000000 = false ∧ decodeCmd 0x00000000 = .error .opcode := by decide
theorem test_opcode_six : opcodeOk 0x00000006 = false ∧ decodeCmd 0x00000006 = .error .opcode := by decide
theorem test_reserved_bit : reservedOk 0x00020021 = false ∧ decodeCmd 0x00020021 = .error .reservedBits := by decide
theorem test_buffer_bit : bufOk 0x00000012 = false ∧ decodeCmd 0x00000012 = .error .bufferBit := by decide
theorem test_immediate : immOk 0x00010005 = false ∧ decodeCmd 0x00010005 = .error .immediate := by decide
theorem test_legal_words : commandWordOk 0x00080011 = true ∧ commandWordOk 0xFFFF0004 = true := by decide

/-! ### Words written out bit by bit from R125 -/

theorem test_decode_csum :
    decodeCmd 0b00000000000010000000000000010001 = .ok (.csum .rx 8) ∧
      decodeCmd 0b00000000000000110000000000000001 = .ok (.csum .tx 3) := by decide
theorem test_decode_encode : decodeCmd 0b00000000000000000000000000000010 = .ok .encode := by decide
theorem test_decode_decode : decodeCmd 0b00000000000000000000000000000011 = .ok .decode := by decide
theorem test_decode_setplen : decodeCmd 0b00000101110110110000000000000100 = .ok (.setplen 1499) := by decide
theorem test_decode_seqinc : decodeCmd 0b00000000000000000000000000000101 = .ok .seqinc := by decide
theorem test_table_word : decodeTableWord 32 0x00100014 = none ∧ decodeTableWord 32 5 = some .seqinc := by decide

/-! ### The checksum (V-CK-5, V-CK-9, V-CK-13) -/

/-- The region of a list of bytes. -/
def region (bs : List Byte) (i : Nat) : Byte := bs.getD i 0

theorem test_checksum_odd : checksum (region [0x12, 0x34, 0x56]) 0 3 = 0x97CB := by decide
theorem test_checksum_rfc :
    checksum (region [0x00, 0x01, 0xF2, 0x03, 0xF4, 0xF5, 0xF6, 0xF7]) 0 8 = 0x220D := by decide
theorem test_checksum_two_folds : checksum (region [0xFF, 0xFF, 0xFF, 0xFF, 0x00, 0x01]) 0 6 = 0xFFFE := by decide

/-! ### One step of each command -/

/-- V-CS-2: an odd start and an odd length. -/
theorem test_csum_odd_region :
    (nextState? (exec (.csum .tx 3) (region4 1))).map (fun t => (t.csumRes, statusWord t.status)) =
      some (0x32CB, 0x00000002) := by decide

/-- V-CS-4 and V-CS-5: RANGE by the integer sum. -/
theorem test_csum_range :
    (nextState? (exec (.csum .tx 10) (region4 1490))).map (fun t => statusWord t.status) = some 0x00000026 ∧
      (nextState? (exec (.csum .rx 1) (region4 0xFFFF))).map (fun t => statusWord t.status) = some 0x00000026 := by
  decide

set_option maxRecDepth 4000 in
/-- V-EN-7: the message, its length and its checksum. -/
theorem test_encode_message :
    (nextState? (exec .encode request7)).map (fun t => (t.txb.map Prod.snd, t.txLen, t.csumRes)) =
      some ([0x08, 0x00, 0x7E, 0x5C, 0xAB, 0xCD, 0x00, 0x07, 0x00, 0x00, 0x00, 0x00, 0xDE, 0xAD, 0xBE, 0xEF, 0x30, 0x31],
        18, 0x7E5C) := by decide

/-- V-EN-5: a message whose checksum is 0. -/
theorem test_encode_checksum_zero :
    (nextState? (exec .encode { bench with id := 0xC7FF, plen := 1 })).map (fun t => (t.csumRes, t.txLen)) =
      some (0x0000, 17) := by decide

/-- V-SP-2 and V-SP-3: both accepted edges. -/
theorem test_setplen_edges :
    (nextState? (exec (.setplen 17) bench)).map State.plen = some 1 ∧
      (nextState? (exec (.setplen 1499) bench)).map State.plen = some 1483 := by decide

/-- V-SP-1 and V-SP-5: both rejected edges leave PLEN. -/
theorem test_setplen_rejects :
    (nextState? (exec (.setplen 16) bench)).map (fun t => (statusWord t.status, t.plen)) = some (0x00000036, 32) ∧
      (nextState? (exec (.setplen 1500) bench)).map (fun t => (statusWord t.status, t.plen)) = some (0x00000036, 32) := by
  decide

/-- V-SI-2: the sequence wraps at 65536. -/
theorem test_seqinc_wraps : (nextState? (exec .seqinc { bench with seq := 0xFFFF })).map State.seq = some 0 := by decide

set_option maxRecDepth 4000 in
/-- V-DE-5: an echo reply with exactly 16 ICMP bytes. -/
theorem test_decode_reply :
    (nextState? (exec .decode (received 36))).map (fun t =>
        (rxIpWord t.rxIp, rxTcWord t.rxTc, t.rxIdseq, t.rxIcmplen, t.rxTsHi, t.rxTsLo)) =
      some (0x00370514, 0x00030000, 0x12340000, 16, 0x01020304, 0x05060708) := by decide

set_option maxRecDepth 4000 in
/-- V-DE-3 and V-DE-9: 7 ICMP bytes are MALFORMED, with IHL and HLEN kept, and 1501 bytes are RXLEN_RANGE. -/
theorem test_decode_malformed :
    (nextState? (exec .decode (received 27))).map (fun t =>
        (statusWord t.status, rxIpWord t.rxIp, rxTcWord t.rxTc, t.rxIdseq)) =
      some (0x00000056, 0x00000514, 0, 0) ∧
      (nextState? (exec .decode (received 1501))).map (fun t => statusWord t.status) = some 0x00000046 := by decide

/-! ### The bus and the command window (V-BUS-2 to V-BUS-6, V-SP-9, P5) -/

theorem test_bus_reads :
    memRead bench 0x0004C .word = .ok (.word 0) ∧ memRead bench 0x00044 .word = .ok (.word 0x000005DC) ∧
      memRead bench 0x00010 .word = .ok (.word 0x00000020) := by decide

theorem test_bus_past_the_buffer :
    memWrite bench 0x105DB (.byte 0x77) = .ok bench ∧ memRead bench 0x105DB .byte = .ok (.byte 0) := by decide

theorem test_bus_error_and_hazard :
    hostAccess (.read 0x10000 .word) bench = .fault .busError ∧
      hostAccess (.read 0x0001C .word) (latched 0x00000002) = .fault .hazard := ⟨rfl, rfl⟩

theorem test_access_text :
    accessText (.write 0x00008 (.word 0x1234)) = ['W', '4', ' '] ++ ['0', 'x', '0', '0', '0', '0', '8'] ++
      [' ', '0', 'x', '0', '0', '0', '0', '1', '2', '3', '4'] := by decide

/-- A host program as R141 expands it: `encode`, `wait`. -/
theorem test_program :
    (loadProgram [.encode, .wait] bench).program = [.access (.write 0x00000 (.word 0x00000002)), .wait] := by decide

/-! ### The very next step runs the placed command -/

theorem test_fetch_word :
    step (bench.withFetchWord 32 0x00000005) =
      .next { bench with cmdl := 0x00000005, status := ⟨false, true, false, .none⟩, seq := 1, awaiting := true } := rfl

/-- V-CS-7: the step of an illegal word raises ILLEGAL_CMD. -/
theorem test_illegal_word :
    (nextState? (step (latched 0x00020021))).map (fun t => statusWord t.status) = some 0x00000016 := by decide

/-! ### For each obligation with hypotheses, words, states and operands that meet all of them -/

theorem test_premises_DecoderFollowsTheMap :
    (0xFFFF0011 &&& 0x0000FFEF#32 = 0x00000001#32) ∧ (0x00000001 &&& 0x0000FFEF#32 = 0x00000001#32) ∧
      (0xFFFF0004 &&& 0x0000FFFF#32 = 0x00000004#32) ∧
      (0x00000014#32 &&& 0x0000FFEF#32 ≠ 0x00000001#32 ∧ 0x00000014#32 ≠ 0x00000002#32 ∧
        0x00000014#32 ≠ 0x00000003#32 ∧ 0x00000014#32 &&& 0x0000FFFF#32 ≠ 0x00000004#32 ∧
        0x00000014#32 ≠ 0x00000005#32) := by decide

theorem test_premises_EncodeOfDecode : decodeCmd 0xFFFF0011 = .ok (.csum .rx 0xFFFF) := by decide

theorem test_premises_IllegalWordsRaiseOnly :
    (latched 0x00020021).cmdl = 0x00020021 ∧ (latched 0x00020021).status.busy = true ∧
      (latched 0x00020021).delay = 0 ∧ decodeCmd 0x00020021 = .error .reservedBits := by decide

theorem test_premises_StepRunsDecodedCommand :
    ((latched 0x00000003).status.busy = true ∧ (latched 0x00000003).delay = 0 ∧
      decodeCmd (latched 0x00000003).cmdl = .ok .decode) ∧ decodeTableWord 32 0x00000003 = some .decode := by decide

/-- Commands that answer a next state: CommandsEndDone, CommandsLeaveHostData, ResultsChangeUnderTheirCommands. -/
theorem test_premises_CommandsEndDone :
    (∃ t, exec (.csum .tx 3) (region4 1) = .next t) ∧ (∃ t, exec .encode request7 = .next t) ∧
      (∃ t, exec .decode (received 27) = .next t) ∧ (∃ t, exec (.setplen 17) bench = .next t) ∧
      ∃ t, exec .seqinc bench = .next t :=
  ⟨⟨_, rfl⟩, ⟨_, exec_encode (by decide)⟩, ⟨_, rfl⟩, ⟨_, rfl⟩, ⟨_, rfl⟩⟩

/-- Commands that end in an error, MALFORMED and another one. -/
theorem test_premises_ErrorsRecordOnlyStatus :
    (∃ t, exec (.setplen 16) bench = .next t ∧ t.status.err = true ∧ t.status.ecode ≠ .malformed) ∧
      ∃ t, exec .decode (received 27) = .next t ∧ t.status.err = true ∧ t.status.ecode = .malformed :=
  ⟨⟨_, rfl, by decide⟩, ⟨_, rfl, by decide⟩⟩

/-- The largest region inside TXB and inside RXB. -/
theorem test_premises_CsumOfRegionInside :
    ((region4 1).csumOff.toNat + (1498 : Half).toNat ≤ (region4 1).cfg.maxdg - 1) ∧
      ((region4 1).csumOff.toNat + (1499 : Half).toNat ≤ (region4 1).cfg.rxbuf) := by decide

/-- The smallest region outside TXB and outside RXB, and the largest sum of all. -/
theorem test_premises_CsumOutsideRaisesRange :
    ((region4 1).cfg.maxdg - 1 < (region4 1).csumOff.toNat + (1499 : Half).toNat) ∧
      ((region4 1).cfg.rxbuf < (region4 1).csumOff.toNat + (1500 : Half).toNat) ∧
      ((region4 0xFFFF).cfg.rxbuf < (region4 0xFFFF).csumOff.toNat + (0xFFFF : Half).toNat) := by decide

/-- V-EN-3's message as a region that holds its own checksum at bytes 2 and 3. -/
theorem test_premises_EmbeddedChecksumVerifies :
    17 ≤ 65535 ∧ 2 % 2 = 0 ∧ 2 + 1 < 17 ∧
      region ([0x08, 0x00, 0xC7, 0xFF] ++ List.replicate 12 0 ++ [0x30]) 2 ++
          region ([0x08, 0x00, 0xC7, 0xFF] ++ List.replicate 12 0 ++ [0x30]) 3 =
        checksum (fun i => if i = 0 + 2 ∨ i = 0 + 2 + 1 then 0#8
          else region ([0x08, 0x00, 0xC7, 0xFF] ++ List.replicate 12 0 ++ [0x30]) i) 0 17 := by decide

/-- AccumulatorNeverOverflows, FoldingEndsInTwoPasses, ChecksumComplementsTheFoldedSum: the longest region, V-CK-14's. -/
theorem test_premises_AccumulatorNeverOverflows : (0xFFFF : Half).toNat ≤ 65535 := by decide

/-- V-CK-9's bytes and an odd trailing byte. -/
def words9 : Nat → Byte := region [0x00, 0x01, 0xF2, 0x03, 0xF4, 0xF5, 0xF6, 0xF7, 0xAB]

/-- V-CK-15's bytes, the same words in another order, and the same trailing byte. -/
def words15 : Nat → Byte := region [0xF6, 0xF7, 0xF4, 0xF5, 0xF2, 0x03, 0x00, 0x01, 0xAB]

/-- Equal words in another order, and an equal region that starts elsewhere. -/
theorem test_premises_ChecksumDependsOnWordsOnly :
    (((List.range (9 / 2)).map fun j => be16 (words9 (0 + 2 * j)) (words9 (0 + 2 * j + 1))).Perm
        ((List.range (9 / 2)).map fun j => be16 (words15 (0 + 2 * j)) (words15 (0 + 2 * j + 1))) ∧
      9 % 2 = 1 ∧ words9 (0 + 9 - 1) = words15 (0 + 9 - 1)) ∧
      ∀ i, i < 3 → region [0xAA, 0x12, 0x34, 0x56] (1 + i) = region [0x12, 0x34, 0x56] (0 + i) := by decide

/-- EncodeBuildsTheMessage, EncodeStoresItsChecksum, EncodeChangesOnlyItsMessage, MessageAlwaysFits: the smallest and the
largest PLEN of the bench. -/
theorem test_premises_EncodeBuildsTheMessage :
    (16 + ({ bench with plen := 1 } : State).plen.toNat ≤ bench.cfg.maxdg - 1 ∧
        1 ≤ ({ bench with plen := 1 } : State).plen.toNat) ∧
      16 + ({ bench with plen := 1483 } : State).plen.toNat ≤ bench.cfg.maxdg - 1 ∧
      ({ bench with plen := 1483 } : State).plen.toNat ≤ bench.cfg.maxdg - 17 := by decide

/-- EncodeTwiceIsTheSame and EncodeChecksumIsNeverAllOnes. -/
theorem test_premises_EncodeTwiceIsTheSame : exec .encode request7 = .next (encodeRequest request7) :=
  exec_encode (by decide)

/-- One PLEN too many. -/
theorem test_premises_EncodeStopsOnlyPastTxb :
    bench.cfg.maxdg - 1 < 16 + ({ bench with plen := 1484 } : State).plen.toNat := by decide

theorem test_premises_SetplenAccepts :
    (16 < (17 : Half).toNat ∧ (17 : Half).toNat < bench.cfg.maxdg) ∧
      16 < (1499 : Half).toNat ∧ (1499 : Half).toNat < bench.cfg.maxdg := by decide

theorem test_premises_SetplenRejects :
    (16 : Half).toNat ≤ 16 ∧ bench.cfg.maxdg ≤ (1500 : Half).toNat := by decide

theorem test_premises_DecodeRefusesLongRxLen : (received 1501).cfg.rxbuf < (received 1501).rxLen.toNat := by decide

theorem test_premises_DecodeRejectsShortDatagrams :
    ((received 27).rxLen.toNat ≤ (received 27).cfg.rxbuf ∧ 0 < (received 27).rxLen.toNat ∧
        (received 27).rxLen.toNat < 4 * ((rxByte (received 27) 0).toNat % 16) + 8) ∧
      (received 0).rxLen.toNat ≤ (received 0).cfg.rxbuf ∧ (received 0).rxLen.toNat = 0 := by decide

/-- DecodeAcceptsExactly, DecodeExtractsFields, DecodeExtractsTimestamp: an echo reply of 8 and of 16 ICMP bytes. -/
theorem test_premises_DecodeExtractsFields :
    (20 = 4 * ((rxByte (received 28) 0).toNat % 16) ∧ 20 + 8 ≤ (received 28).rxLen.toNat ∧
        (received 28).rxLen.toNat ≤ (received 28).cfg.rxbuf ∧ rxByte (received 28) 20 = 0#8) ∧
      20 = 4 * ((rxByte (received 36) 0).toNat % 16) ∧ 20 + 16 ≤ (received 36).rxLen.toNat ∧
      (received 36).rxLen.toNat ≤ (received 36).cfg.rxbuf ∧ rxByte (received 36) 20 = 0#8 := by decide

/-- V-DE-10: IHL 0 and 8 received bytes, where TTL is drawn and the type, 0x40, is no echo reply. -/
theorem test_premises_DecodeExtractsFields_ihl_zero :
    0 = 4 * ((rxByte { received 8 with rxb := bytesAt0 [0x40, 0, 0, 8, 0, 0, 0, 0] } 0).toNat % 16) ∧
      0 + 8 ≤ (received 8).rxLen.toNat ∧ (received 8).rxLen.toNat ≤ (received 8).cfg.rxbuf ∧
      rxByte { received 8 with rxb := bytesAt0 [0x40, 0, 0, 8, 0, 0, 0, 0] } 0 ≠ 0#8 := by decide

/-- V-DE-17: D1 with another ICMP checksum, at HLEN + 2. -/
theorem test_premises_DecodeIgnoresChecksums :
    20 = 4 * ((rxByte (received 36) 0).toNat % 16) ∧
      (∀ i, i < (received 36).rxLen.toNat → i ≠ 20 + 2 → i ≠ 20 + 3 → ¬((i = 10 ∨ i = 11) ∧ 12 ≤ 20) →
        rxByte { received 36 with rxb := memSet (received 36).rxb 22 0 } i = rxByte (received 36) i) ∧
      rxByte { received 36 with rxb := memSet (received 36).rxb 22 0 } 22 ≠ rxByte (received 36) 22 := by decide

/-- 28 received bytes, and another byte past them. -/
theorem test_premises_DecodeReadsReceivedBytesOnly :
    (∀ i, i < (received 28).rxLen.toNat →
      rxByte { received 28 with rxb := memSet (received 28).rxb 30 0xFF } i = rxByte (received 28) i) ∧
      rxByte { received 28 with rxb := memSet (received 28).rxb 30 0xFF } 30 ≠ rxByte (received 28) 30 := by decide

/-- The reply to V-EN-7's request behind a 20-byte header, with an empty checksum. -/
def reply7 : State :=
  { bench with
    rxb := bytesAt0 ([0x45] ++ List.replicate 19 0 ++ [0x00, 0x00, 0x00, 0x00, 0xAB, 0xCD, 0x00, 0x07] ++
      [0x00, 0x00, 0x00, 0x00, 0xDE, 0xAD, 0xBE, 0xEF, 0x30, 0x31])
    rxLen := 38 }

theorem test_premises_EchoRoundTrip :
    exec .encode request7 = .next (encodeRequest request7) ∧ 18 = (encodeRequest request7).txLen.toNat ∧
      20 = 4 * ((rxByte reply7 0).toNat % 16) ∧ rxByte reply7 20 = 0#8 ∧
      (∀ i, i < 18 → i ≠ 0 → i ≠ 2 → i ≠ 3 → rxByte reply7 (20 + i) = txByte (encodeRequest request7) i) ∧
      reply7.rxLen.toNat = 20 + 18 ∧ 20 + 18 ≤ reply7.cfg.rxbuf :=
  ⟨exec_encode (by decide), by decide, by decide, by decide, by decide, by decide, by decide⟩

/-- A byte and a misaligned word in the word class, at its end; a word in the byte class, at its start. -/
theorem test_premises_BrokenAccessesAreBusErrors :
    ((Access.read 0x0FFFC .byte).off.toNat < 0x10000 ∧ (Access.read 0x0FFFC .byte).width ≠ .word) ∧
      ((Access.write 0x0FFFE (.word 0)).off.toNat < 0x10000 ∧ (Access.write 0x0FFFE (.word 0)).off.toNat % 4 ≠ 0) ∧
      (0x10000 ≤ (Access.write 0x10000 (.word 0)).off.toNat ∧ (Access.write 0x10000 (.word 0)).width ≠ .byte) := by
  decide

/-- A pending command, and a performed one whose STATUS the host has not read yet. -/
theorem test_premises_CommandWindowAllowsStatusOnly :
    ((latched 0x00000005).status.busy = true ∧ legalAccess 0x00008 .word = true ∧
        Access.read 0x00008 .word ≠ .read 0x004 .word) ∧
      ({ bench with status := statusSuccess, awaiting := true } : State).status.busy = false ∧
      ({ bench with status := statusSuccess, awaiting := true } : State).awaiting = true := by decide

theorem test_premises_ReservedOffsetsReadZero :
    (0x04C ≤ (0x0004C : Offset).toNat ∧ (0x0004C : Offset).toNat ≤ 0x0FFFC ∧ (0x0004C : Offset).toNat % 4 = 0) ∧
      0x04C ≤ (0x0FFFC : Offset).toNat ∧ (0x0FFFC : Offset).toNat ≤ 0x0FFFC ∧ (0x0FFFC : Offset).toNat % 4 = 0 := by
  decide

/-- The last byte of each buffer, the first offset past each, and the unused window's first. -/
theorem test_premises_BufferWindows :
    (0x10000 ≤ (0x105DA : Offset).toNat ∧ (0x105DA : Offset).toNat - 0x10000 < bench.cfg.maxdg - 1 ∧
        (0x105DA : Offset).toNat < 0x20000) ∧
      (0x20000 ≤ (0x205DB : Offset).toNat ∧ (0x205DB : Offset).toNat - 0x20000 < bench.cfg.rxbuf ∧
        (0x205DB : Offset).toNat < 0x30000) ∧
      (0x10000 ≤ (0x105DB : Offset).toNat ∧ (0x105DB : Offset).toNat < 0x20000 ∧
        bench.cfg.maxdg - 1 ≤ (0x105DB : Offset).toNat - 0x10000) ∧
      (0x20000 ≤ (0x205DC : Offset).toNat ∧ (0x205DC : Offset).toNat < 0x30000 ∧
        bench.cfg.rxbuf ≤ (0x205DC : Offset).toNat - 0x20000) ∧ 0x30000 ≤ (0x30000 : Offset).toNat := by decide

/-- ReadsHaveNoSideEffect, LegalWritesComplete, CmdWriteLatches: no command pending, no window open. -/
theorem test_premises_ReadsHaveNoSideEffect :
    legalAccess 0x00018 .word = true ∧ legalAccess 0x3FFFF (BusData.byte 0).width = true ∧
      bench.status.busy = false ∧ bench.awaiting = false ∧ (latched 0x00000005).status.busy = true := by decide

theorem test_premises_BusAddressing : offsetAt (busAddress 0x3FFFF) = some 0x3FFFF := by
  unfold offsetAt busAddress
  generalize Config.base = base
  rw [if_pos ⟨Nat.le_add_right .., Nat.add_lt_add_left (by decide) base⟩, Nat.add_sub_cancel_left]
  decide

/-- A reset with a command pending, and one with none. -/
theorem test_premises_ResetInputRestores :
    (({ bench with program := [.reset] } : State).program = .reset :: [] ∧ bench.status.busy = false) ∧
      ({ latched 0x00000002 with program := [.reset], delay := 1 } : State).program = .reset :: [] ∧
      0 < ({ latched 0x00000002 with program := [.reset], delay := 1 } : State).delay := by decide

/-- A state with a pending SEQINC whose host waits for it. -/
def waiting : State := { latched 0x00000005 with program := [.wait], delay := 1 }

/-- CommandsComplete, and the clauses of EncodeStopsOnlyPastTxb and CommandWindowAllowsStatusOnly that ask for it. -/
theorem test_premises_CommandsComplete :
    StateInv waiting ∧ waiting.status.busy = true ∧ waiting.program = .wait :: [] :=
  ⟨by constructor <;> decide, by decide, by decide⟩

/-- A performed command whose window is still open meets the invariant. -/
theorem test_premises_window_after_the_step : StateInv { bench with status := statusSuccess, awaiting := true } := by
  constructor <;> decide

theorem test_premises_StepKeepsInvariant : StateInv waiting ∧ ∃ t, step waiting = .next t :=
  ⟨by constructor <;> decide, _, rfl⟩

/-- A host that launches SEQINC, waits, and reads SEQ. -/
theorem test_premises_DisciplinedHostNeverFaults :
    SafeState (loadProgram [.seqinc, .wait, .rd32 .seq] bench) :=
  ⟨by constructor <;> decide, by decide⟩

theorem test_premises_NothingRunsByItself :
    (bench.status.busy = false ∧ bench.program = []) ∧
      ∃ t, step (loadProgram [.seqinc] bench) = .next t ∧ t.status.busy = true := ⟨by decide, _, rfl, by decide⟩

theorem test_premises_StatusPersists :
    (∃ t, step waiting = .next t) ∧ 0 < waiting.delay ∧ (∀ rest, waiting.program ≠ .reset :: rest) ∧
      ∀ w rest, waiting.program ≠ .access (.write 0x000 (.word w)) :: rest :=
  ⟨⟨_, rfl⟩, by decide, fun _ => by simp [waiting], fun _ _ => by simp [waiting]⟩

/-- CfgRegistersAreConstants: a step that answers a next state. -/
theorem test_premises_CfgRegistersAreConstants : ∃ t, step bench = .next t := ⟨_, rfl⟩

/-- RegisterWrites and RegistersReadBack: offsets of their lists. -/
theorem test_premises_RegisterWrites :
    (0x048 : Offset) ∈ ([0x004, 0x048] : List Offset) ∧ (0x028 : Offset) ∈ ([0x008, 0x00C, 0x020, 0x028] : List Offset) ∧
      (0x018 : Offset) ∈ ([0x014, 0x018] : List Offset) := by decide

/-- DrawsAreFresh: no received byte; V-DE-10, accepted with TTL past RX_LEN; V-DE-4, an echo reply with no timestamp byte
received; and a step that answers a next state. -/
theorem test_premises_DrawsAreFresh :
    ((received 0).rxLen.toNat ≤ (received 0).cfg.rxbuf ∧ (received 0).rxLen.toNat = 0) ∧
      (∃ t, exec .decode { received 8 with rxb := bytesAt0 [0x40, 0, 0, 8, 0, 0, 0, 0] } = .next t ∧
        t.status.err = false ∧ t.rxLen.toNat ≤ 8) ∧
      (∃ t, exec .decode (received 28) = .next t ∧ t.rxTc.echo = true ∧ t.rxLen.toNat ≤ t.rxIp.hlen.toNat + 8 + 0) ∧
      ∃ t, step bench = .next t :=
  ⟨by decide, ⟨_, rfl, by decide⟩, ⟨_, rfl, by decide⟩, _, rfl⟩
end

section
/-!
PROOFS. Word accesses of the register window (10_state.md R33, R49, R50): a legal word access reaches the register its
offset names, or nothing at a reserved offset; and no step changes the configuration.
-/

namespace Sys2Proof.Machine

/-! ### Legal word accesses (20_memory.md R82, R84) -/

theorem wordClass_of_lt {off : Offset} (h : off.toNat < 0x10000) : wordClass off = true := by
  simpa [wordClass] using h

/-- In the word class, a word access at a multiple of 4 is legal (R82). -/
theorem legalAccess_word {off : Offset} (h : off.toNat < 0x10000) (h4 : off.toNat % 4 = 0) :
    legalAccess off .word = true := by
  simp [legalAccess, wordClass_of_lt h, h4]

theorem memRead_word {off : Offset} (s : State) (h : off.toNat < 0x10000) (h4 : off.toNat % 4 = 0) :
    memRead s off .word = .ok (.word (wordRead s off)) := by
  rw [memRead_legal (legalAccess_word h h4), if_pos (wordClass_of_lt h)]

theorem memWrite_word {off : Offset} (s : State) (v : Word) (h : off.toNat < 0x10000) (h4 : off.toNat % 4 = 0) :
    memWrite s off (.word v) = .ok (wordWrite s off v) :=
  if_pos (legalAccess_word h h4)

/-! ### The register an offset names (10_state.md R33) -/

/-- The named registers stand at the multiples of 4 up to 0x048. -/
theorem regOffset_bounds (r : Reg) : (regOffset r).toNat ≤ 0x48 ∧ (regOffset r).toNat % 4 = 0 := by
  cases r <;> decide

@[simp] theorem regAt_regOffset (r : Reg) : regAt (regOffset r) = some r := by
  cases r <;> decide

/-- Past CFG_RXBUF no register stands (R50). -/
theorem regAt_reserved {off : Offset} (h : 0x4C ≤ off.toNat) : regAt off = none := by
  refine List.find?_eq_none.2 fun r _ hr => ?_
  obtain rfl : regOffset r = off := by simpa using hr
  have := (regOffset_bounds r).1
  omega

theorem memRead_regOffset (s : State) (r : Reg) : memRead s (regOffset r) .word = .ok (.word (regRead s r)) := by
  obtain ⟨hle, h4⟩ := regOffset_bounds r
  rw [memRead_word s (by omega) h4, wordRead, regAt_regOffset]

theorem memWrite_regOffset (s : State) (r : Reg) (v : Word) :
    memWrite s (regOffset r) (.word v) = .ok (regWrite v s r) := by
  obtain ⟨hle, h4⟩ := regOffset_bounds r
  rw [memWrite_word s v (by omega) h4, wordWrite, regAt_regOffset]

theorem wordRead_reserved {off : Offset} (s : State) (h : 0x4C ≤ off.toNat) : wordRead s off = 0#32 := by
  rw [wordRead, regAt_reserved h]; rfl

theorem wordWrite_reserved {off : Offset} (s : State) (v : Word) (h : 0x4C ≤ off.toNat) : wordWrite s off v = s := by
  rw [wordWrite, regAt_reserved h]

/-! ### A number held in the low bits of a word -/

/-- A number that fits the low `k` bits of a word is read back from them. -/
theorem extractLsb'_low_ofNat {n k : Nat} (hk : k ≤ 32) (h : n < 2 ^ k) :
    ((BitVec.ofNat 32 n).extractLsb' 0 k).toNat = n := by
  have h32 : n < 2 ^ 32 := h.trans_le (Nat.pow_le_pow_right (by decide) hk)
  rw [BitVec.extractLsb'_toNat, BitVec.toNat_ofNat, Nat.shiftRight_zero, Nat.mod_eq_of_lt h32, Nat.mod_eq_of_lt h]

/-- The bits above the low `k` are then 0. -/
theorem extractLsb'_high_ofNat {n k : Nat} (m : Nat) (hk : k ≤ 32) (h : n < 2 ^ k) :
    (BitVec.ofNat 32 n).extractLsb' k m = 0#m := by
  have h32 : n < 2 ^ 32 := h.trans_le (Nat.pow_le_pow_right (by decide) hk)
  apply BitVec.eq_of_toNat_eq
  rw [BitVec.extractLsb'_toNat, BitVec.toNat_ofNat, Nat.mod_eq_of_lt h32, Nat.shiftRight_eq_div_pow,
    Nat.div_eq_of_lt h, Nat.zero_mod, BitVec.toNat_zero]

/-! ### No step changes the configuration (R49) -/

theorem exec_cfg {i : Instr} {s t : State} (h : exec i s = .next t) : t.cfg = s.cfg := by
  rcases exec_cases h with ⟨_, _, _, rfl | ⟨_, rfl⟩⟩ | ⟨_, _, rfl⟩ |
    ⟨_, rfl | ⟨_, _, rfl⟩ | ⟨_, _, rfl⟩⟩ | ⟨_, _, rfl | ⟨_, _, rfl⟩⟩ | ⟨_, rfl⟩
  case inr.inl => exact encodeRequest_cfg s
  all_goals rfl

theorem engineStep_cfg {s t : State} (h : engineStep s = .next t) : t.cfg = s.cfg := by
  rcases engineStep_cases h with ⟨_, _, hi⟩ | rfl
  · exact exec_cfg hi
  · exact raise_cfg s _

theorem hostAccess_cfg {a : Access} {s t : State} (h : hostAccess a s = .next t) : t.cfg = s.cfg := by
  rcases hostAccess_cases h with ⟨_, rfl⟩ | ⟨_, _, _, rfl⟩ | ⟨_, _, _, _, rfl⟩ |
    ⟨_, _, _, ⟨_, _, _, rfl⟩ | ⟨_, _, _, rfl⟩ | ⟨_, _, _, _, _, _, rfl⟩⟩
  · exact noteRead_cfg s _ _
  · exact noteRead_cfg s _ _
  · exact launch_cfg s _
  · exact setTx_cfg s _ _
  · exact setRx_cfg s _ _
  · rfl

theorem inputStep_cfg {s t : State} (h : inputStep s = .next t) : t.cfg = s.cfg := by
  unfold inputStep at h
  split at h
  next => cases h; rfl
  next => exact (hostAccess_cfg h :)
  next => rw [hostAccess_cfg h]; split <;> rfl
  next => cases h; exact applyReset_cfg _

theorem step_cfg {s t : State} (h : step s = .next t) : t.cfg = s.cfg := by
  rcases due_or_not s with ⟨hb, hd⟩ | hn
  · exact engineStep_cfg (step_due hb hd ▸ h)
  · exact (inputStep_cfg (step_not_due hn ▸ h)).trans (tick_cfg s)

/-! ### The obligations -/

/-- Settles O40: the two registers' words from `Params`' bounds, and `cfg` is kept by every step. -/
theorem cfgRegistersAreConstants : Obligations.CfgRegistersAreConstants := by
  refine ⟨fun s => ⟨⟨_, memRead_regOffset s .cfgMaxdg, ?_, ?_⟩, ⟨_, memRead_regOffset s .cfgRxbuf, ?_, ?_⟩,
    fun v => ⟨memWrite_regOffset s .cfgMaxdg v, memWrite_regOffset s .cfgRxbuf v⟩, applyReset_cfg s⟩,
    fun s t => step_cfg⟩
  all_goals have hmax := s.cfg.maxdg_le; have hrx := s.cfg.rxbuf_le
  · exact extractLsb'_low_ofNat (by decide) (by omega)
  · exact extractLsb'_high_ofNat 15 (by decide) (by omega)
  · exact extractLsb'_low_ofNat (by decide) (by omega)
  · exact extractLsb'_high_ofNat 16 (by decide) (by omega)

/-- Settles O41: the access is legal, and no register stands at the offset. -/
theorem reservedOffsetsReadZero : Obligations.ReservedOffsetsReadZero := by
  intro s off v hlo hhi h4
  have hw : off.toNat < 0x10000 := by omega
  exact ⟨by rw [memRead_word s hw h4, wordRead_reserved s hlo],
    by rw [memWrite_word s v hw h4, wordWrite_reserved s v hlo]⟩

end Sys2Proof.Machine
end

section
/-!
PROOFS. Byte accesses of the buffer windows (20_memory.md R82, R85): a byte access in the byte class is legal, and what it
does is decided by the buffer byte `windowAt` names there, or by there being none.
-/

namespace Sys2Proof.Machine

/-! ### Legal byte accesses (20_memory.md R82, R84) -/

theorem wordClass_of_ge {off : Offset} (h : 0x10000 ≤ off.toNat) : wordClass off = false := by
  simpa [wordClass] using h

/-- In the byte class, a byte access is legal at every offset (R82). -/
theorem legalAccess_byte {off : Offset} (h : 0x10000 ≤ off.toNat) : legalAccess off .byte = true := by
  simp [legalAccess, wordClass_of_ge h]

theorem memRead_byte {off : Offset} (s : State) (h : 0x10000 ≤ off.toNat) :
    memRead s off .byte = .ok (.byte (byteRead s off)) := by
  rw [memRead_legal (legalAccess_byte h), if_neg (by simp [wordClass_of_ge h])]

theorem memWrite_byte {off : Offset} (s : State) (v : Byte) (h : 0x10000 ≤ off.toNat) :
    memWrite s off (.byte v) = .ok (byteWrite s off v) :=
  if_pos (legalAccess_byte h)

/-! ### The buffer byte an offset reaches (R81, R85) -/

theorem windowAt_tx {s : State} {off : Offset} (hlo : 0x10000 ≤ off.toNat)
    (hlt : off.toNat - 0x10000 < s.cfg.txbuf) (hhi : off.toNat < 0x20000) :
    windowAt s off = some (.tx, off.toNat - 0x10000) := by
  simp only [windowAt]
  rw [if_neg (by omega), if_pos hhi, if_pos hlt]

theorem windowAt_rx {s : State} {off : Offset} (hlo : 0x20000 ≤ off.toNat)
    (hlt : off.toNat - 0x20000 < s.cfg.rxbuf) (hhi : off.toNat < 0x30000) :
    windowAt s off = some (.rx, off.toNat - 0x20000) := by
  simp only [windowAt]
  rw [if_neg (by omega), if_neg (by omega), if_pos hhi, if_pos hlt]

theorem windowAt_pastTx {s : State} {off : Offset} (hlo : 0x10000 ≤ off.toNat) (hhi : off.toNat < 0x20000)
    (hge : s.cfg.txbuf ≤ off.toNat - 0x10000) : windowAt s off = none := by
  simp only [windowAt]
  rw [if_neg (by omega), if_pos hhi, if_neg (by omega)]

theorem windowAt_pastRx {s : State} {off : Offset} (hlo : 0x20000 ≤ off.toNat) (hhi : off.toNat < 0x30000)
    (hge : s.cfg.rxbuf ≤ off.toNat - 0x20000) : windowAt s off = none := by
  simp only [windowAt]
  rw [if_neg (by omega), if_neg (by omega), if_pos hhi, if_neg (by omega)]

theorem windowAt_pastWindows {off : Offset} (s : State) (h : 0x30000 ≤ off.toNat) : windowAt s off = none := by
  simp only [windowAt]
  rw [if_neg (by omega), if_neg (by omega), if_neg (by omega)]

/-! ### What a byte access does there -/

theorem byteRead_some {s : State} {off : Offset} {b : Buf} {i : Nat} (h : windowAt s off = some (b, i)) :
    byteRead s off = bufByte b s i := by
  simp only [byteRead, h]

theorem byteRead_none {s : State} {off : Offset} (h : windowAt s off = none) : byteRead s off = 0 := by
  simp only [byteRead, h]

theorem byteWrite_tx {s : State} {off : Offset} {i : Nat} (v : Byte) (h : windowAt s off = some (.tx, i)) :
    byteWrite s off v = setTx s i v := by
  simp only [byteWrite, h]

theorem byteWrite_rx {s : State} {off : Offset} {i : Nat} (v : Byte) (h : windowAt s off = some (.rx, i)) :
    byteWrite s off v = setRx s i v := by
  simp only [byteWrite, h]

theorem byteWrite_none {s : State} {off : Offset} (v : Byte) (h : windowAt s off = none) : byteWrite s off v = s := by
  simp only [byteWrite, h]

/-! ### The obligation -/

/-- Settles O44: in each part of the byte class `windowAt` names the byte, or none, and the access is its read or its set. -/
theorem bufferWindows : Obligations.BufferWindows := by
  intro s off v
  refine ⟨fun hlo hlt hhi => ?inTx, fun hlo hlt hhi => ?inRx, fun hout => ?outside⟩
  case inTx =>
    have hw := windowAt_tx hlo hlt hhi
    rw [memRead_byte s hlo, memWrite_byte s v hlo, byteRead_some hw, byteWrite_tx v hw]
    exact ⟨rfl, _, rfl, rfl, fun j => (txByte_setTx s _ j v).trans (if_congr eq_comm rfl rfl)⟩
  case inRx =>
    have hb : 0x10000 ≤ off.toNat := by omega
    have hw := windowAt_rx hlo hlt hhi
    rw [memRead_byte s hb, memWrite_byte s v hb, byteRead_some hw, byteWrite_rx v hw]
    exact ⟨rfl, _, rfl, rfl, fun j => (rxByte_setRx s _ j v).trans (if_congr eq_comm rfl rfl)⟩
  case outside =>
    have hb : 0x10000 ≤ off.toNat := by omega
    have hw : windowAt s off = none := by
      rcases hout with ⟨hlo, hhi, hge⟩ | ⟨hlo, hhi, hge⟩ | hge
      · exact windowAt_pastTx hlo hhi hge
      · exact windowAt_pastRx hlo hhi hge
      · exact windowAt_pastWindows s hge
    rw [memRead_byte s hb, memWrite_byte s v hb, byteRead_none hw, byteWrite_none v hw]
    exact ⟨rfl, rfl⟩

end Sys2Proof.Machine
end

section
/-!
PROOFS. Command decoding as a total function of the word (30_encoding.md R126), and the illegal words (R127): the clauses
of `decodeCmd` as tests on the word's fields, and what performing an illegal word does.
-/

namespace Sys2Proof

/-! ### The clauses of `decodeCmd` (R126) -/

theorem decodeCmd_csum {w : Word} (h : w &&& 0x0000FFEF#32 = 0x00000001#32) :
    decodeCmd w = .ok (.csum (bufOfBit (bufField w)) (immField w)) :=
  if_pos h

/-- The clauses before SETPLEN's ask for other OP codes. -/
theorem decodeCmd_setplen {w : Word} (h : w &&& 0x0000FFFF#32 = 0x00000004#32) :
    decodeCmd w = .ok (.setplen (immField w)) := by
  obtain ⟨_, _, hop⟩ := (setplen_test w).1 h
  have hcsum : ¬ w &&& 0x0000FFEF#32 = 0x00000001#32 := by simp [csum_test, hop]
  have hencode : ¬ w = 0x00000002#32 := by simp [encode_test, hop]
  have hdecode : ¬ w = 0x00000003#32 := by simp [decode_test, hop]
  rw [decodeCmd, if_neg hcsum, if_neg hencode, if_neg hdecode, if_pos h]

/-- A word is ILLEGAL exactly when it meets none of the five clauses. -/
theorem decodeCmd_error_iff (w : Word) :
    (∃ e, decodeCmd w = .error e) ↔
      w &&& 0x0000FFEF#32 ≠ 0x00000001#32 ∧ w ≠ 0x00000002#32 ∧ w ≠ 0x00000003#32 ∧
        w &&& 0x0000FFFF#32 ≠ 0x00000004#32 ∧ w ≠ 0x00000005#32 := by
  unfold decodeCmd
  split_ifs <;> simp [*]

/-- Settles O1: each clause by the lemma about it, a word that meets none by `decodeCmd_error_iff`. -/
theorem decoderFollowsTheMap : Obligations.DecoderFollowsTheMap := by
  intro w
  refine ⟨decodeCmd_csum, ?encode, ?decode, decodeCmd_setplen, ?seqinc, fun hcsum hencode hdecode hsetplen hseqinc =>
    (decodeCmd_error_iff w).2 ⟨hcsum, hencode, hdecode, hsetplen, hseqinc⟩⟩
  all_goals rintro rfl; decide

/-! ### The illegal words (R127) -/

/-- An OP field is one of the five operation codes, or R127 lists it. -/
theorem opcode_cases (op : BitVec 4) :
    op = 1#4 ∨ op = 2#4 ∨ op = 3#4 ∨ op = 4#4 ∨ op = 5#4 ∨
      ((op = 0#4 ∨ 6#4 ≤ op) ∧ op ≠ 1#4 ∧ op ≠ 2#4 ∧ op ≠ 3#4 ∧ op ≠ 4#4 ∧ op ≠ 5#4) := by
  revert op; decide

/-- The words that `commandWordOk` refuses are R127's list. -/
theorem commandWordOk_eq_false_iff (w : Word) :
    commandWordOk w = false ↔
      opField w = 0#4 ∨ 6#4 ≤ opField w ∨ rsvField w ≠ 0#11 ∨ (bufField w = true ∧ opField w ≠ 1#4) ∨
        (immField w ≠ 0#16 ∧ (opField w = 2#4 ∨ opField w = 3#4 ∨ opField w = 5#4)) := by
  simp [commandWordOk, opcodeOk, reservedOk, bufOk, immOk, or_assoc, imp_iff_not_or]

/-- The clauses of R126 and the field list of R127 agree on every word: with the OP code known, both are the same tests on
the other fields. -/
theorem decodeCmd_error_iff_commandWordOk (w : Word) :
    (∃ e, decodeCmd w = .error e) ↔ commandWordOk w = false := by
  simp only [decodeCmd_error_iff, commandWordOk_eq_false_iff, ne_eq, csum_test, encode_test, decode_test, setplen_test,
    seqinc_test]
  rcases opcode_cases (opField w) with hop | hop | hop | hop | hop | ⟨hlisted, h1, h2, h3, h4, h5⟩
  case inr.inr.inr.inr.inr => simp [← or_assoc, hlisted, h1, h2, h3, h4, h5]
  all_goals simp [hop, imp_iff_not_or, or_comm, or_left_comm, or_assoc]

/-- Settles O4: R127's list is the model's own check, and the due step of an illegal word is `raise .illegalCmd`. -/
theorem illegalWordsRaiseOnly : Obligations.IllegalWordsRaiseOnly := by
  intro w
  refine ⟨(decodeCmd_error_iff_commandWordOk w).trans (commandWordOk_eq_false_iff w), ?_⟩
  rintro s e rfl hbusy hdelay herr
  rw [Machine.step_due hbusy hdelay, Machine.engineStep_error herr]
  rfl

end Sys2Proof
end

section
/-!
PROOFS. The message ENCODE builds (30_encoding.md R130 to R132): each part of TXB after ENCODE, and the checksum at bytes 2
and 3 as the checksum of the message with that field 0 (41_encode.md R201).
-/

namespace Sys2Proof.Machine

/-! ### The bytes of the message's parts -/

/-- The timestamp's first four bytes are TS_HI's (10_state.md R39). -/
theorem tsByte_hi (tsHi tsLo : Word) {k : Nat} (h : k < 4) :
    tsByte tsHi tsLo k = tsHi.extractLsb' (24 - 8 * k) 8 :=
  if_pos h

/-- The timestamp's last four bytes are TS_LO's (10_state.md R39). -/
theorem tsByte_lo (tsHi tsLo : Word) (k : Nat) :
    tsByte tsHi tsLo (4 + k) = tsLo.extractLsb' (24 - 8 * k) 8 := by
  rw [tsByte, if_neg (by omega), Nat.add_sub_cancel_left]

theorem fillerByte_eq_ofNat (i : Nat) : fillerByte i = BitVec.ofNat 8 (0x30 + i % 64) :=
  (BitVec.ofNat_add 0x30 (i % 64)).symm

/-! ### TXB after ENCODE -/

/-- Outside the checksum field ENCODE leaves the placeholder message. -/
theorem txByte_encodeRequest_of_ne (s : State) {i : Nat} (h2 : i ≠ 2) (h3 : i ≠ 3) :
    txByte (encodeRequest s) i = txByte (writeRequest s) i := by
  rw [txByte_encodeRequest, if_neg h3, if_neg h2]

theorem txByte_encodeRequest_header (s : State) {i : Nat} (h : i < 8) (h2 : i ≠ 2) (h3 : i ≠ 3) :
    txByte (encodeRequest s) i = (requestHeader 0 s.id s.seq)[i]'(by simpa [requestHeader] using h) := by
  rw [txByte_encodeRequest_of_ne s h2 h3, txByte_writeRequest_header s h]

theorem idField_encodeRequest (s : State) : txByte (encodeRequest s) 4 ++ txByte (encodeRequest s) 5 = s.id := by
  rw [txByte_encodeRequest_header s (i := 4) (by decide) (by decide) (by decide),
    txByte_encodeRequest_header s (i := 5) (by decide) (by decide) (by decide)]
  exact be16_hi_lo s.id

theorem seqField_encodeRequest (s : State) : txByte (encodeRequest s) 6 ++ txByte (encodeRequest s) 7 = s.seq := by
  rw [txByte_encodeRequest_header s (i := 6) (by decide) (by decide) (by decide),
    txByte_encodeRequest_header s (i := 7) (by decide) (by decide) (by decide)]
  exact be16_hi_lo s.seq

theorem txByte_encodeRequest_timestamp (s : State) {k : Nat} (h : k < 8) :
    txByte (encodeRequest s) (8 + k) = tsByte s.tsHi s.tsLo k := by
  rw [txByte_encodeRequest_of_ne s (by omega) (by omega), txByte_writeRequest_timestamp s h]

theorem txByte_encodeRequest_filler (s : State) {i : Nat} (h : i < s.plen.toNat) :
    txByte (encodeRequest s) (16 + i) = fillerByte i := by
  rw [txByte_encodeRequest_of_ne s (by omega) (by omega), txByte_writeRequest_filler s h]

/-! ### The checksum field -/

/-- A region's checksum depends on the region's bytes only. -/
theorem checksum_congr {B B' : Nat → Byte} {off off' len : Nat}
    (h : ∀ i, i < len → B (off + i) = B' (off' + i)) : checksum B off len = checksum B' off' len := by
  rw [checksum, checksum, regionSum_congr h]

/-- The message with its checksum field zeroed is the placeholder message. -/
theorem txByte_encodeRequest_zeroed (s : State) (i : Nat) :
    (if i = 2 ∨ i = 3 then 0#8 else txByte (encodeRequest s) i) = txByte (writeRequest s) i := by
  split_ifs with h
  · obtain rfl | rfl := h
    · exact (txByte_writeRequest_header s (i := 2) (by decide)).symm
    · exact (txByte_writeRequest_header s (i := 3) (by decide)).symm
  · exact txByte_encodeRequest_of_ne s (fun h2 => h (.inl h2)) (fun h3 => h (.inr h3))

theorem requestChecksum_eq_zeroed (s : State) :
    requestChecksum s =
      checksum (fun i => if i = 2 ∨ i = 3 then 0#8 else txByte (encodeRequest s) i) 0 (totalSize s) :=
  checksum_congr fun i _ => (txByte_encodeRequest_zeroed s (0 + i)).symm

theorem checksumField_encodeRequest (s : State) :
    txByte (encodeRequest s) 2 ++ txByte (encodeRequest s) 3 = requestChecksum s := by
  rw [txByte_encodeRequest, txByte_encodeRequest]
  exact be16_hi_lo (requestChecksum s)

/-! ### The obligation -/

/-- Settles O15: ENCODE completes with `encodeRequest`, and each part of its message is read back by the lemma about it. -/
theorem encodeBuildsTheMessage : Obligations.EncodeBuildsTheMessage := by
  intro s hfits
  have hfits : totalSize s ≤ s.cfg.txbuf := hfits
  refine ⟨encodeRequest s, exec_encode hfits, encodeRequest_status s, encodeRequest_txLen_toNat hfits, ?type, ?code,
    (checksumField_encodeRequest s).trans (requestChecksum_eq_zeroed s), idField_encodeRequest s,
    seqField_encodeRequest s, fun k hk => ⟨?tsHi, ?tsLo⟩, fun i hi => ?filler⟩
  case type => exact txByte_encodeRequest_header s (i := 0) (by decide) (by decide) (by decide)
  case code => exact txByte_encodeRequest_header s (i := 1) (by decide) (by decide) (by decide)
  case tsHi => rw [txByte_encodeRequest_timestamp s (by omega), tsByte_hi _ _ hk]
  case tsLo =>
    rw [show 12 + k = 8 + (4 + k) by omega, txByte_encodeRequest_timestamp s (by omega), tsByte_lo]
  case filler => rw [txByte_encodeRequest_filler s hi, fillerByte_eq_ofNat]

end Sys2Proof.Machine
end

section
/-!
PROOFS. The sum of a region (40_checksum.md R171 to R173): its words and trailing word, the exact sum with its bound, when
it is 0, and that the order of the words does not matter (R178).
-/

namespace Sys2Proof.Machine

/-! ### The words of a region (R171, R172) -/

/-- Word `j` of the region of `B` that starts at `off` (R171). -/
def regionWord (B : Nat → Byte) (off j : Nat) : Half := be16 (B (off + 2 * j)) (B (off + 2 * j + 1))

/-- The last word of a region of odd length, its low byte 0 (R172); 0 for a region of even length. -/
def trailingWord (B : Nat → Byte) (off len : Nat) : Half :=
  if len % 2 = 1 then be16 (B (off + len - 1)) 0#8 else 0

theorem regionWord_toNat (B : Nat → Byte) (off j : Nat) :
    (regionWord B off j).toNat = 256 * (B (off + 2 * j)).toNat + (B (off + 2 * j + 1)).toNat :=
  be16_toNat _ _

theorem trailingWord_toNat (B : Nat → Byte) (off len : Nat) :
    (trailingWord B off len).toNat = if len % 2 = 1 then 256 * (B (off + len - 1)).toNat else 0 := by
  unfold trailingWord
  split
  · exact be16_toNat _ _
  · rfl

theorem trailingWord_le (B : Nat → Byte) (off len : Nat) : (trailingWord B off len).toNat ≤ 0xFF00 := by
  have := (B (off + len - 1)).isLt
  rw [trailingWord_toNat]
  split <;> omega

theorem wordSum_succ (B : Nat → Byte) (off n : Nat) :
    wordSum B off (n + 1) = wordSum B off n + (regionWord B off n).setWidth 32 := rfl

theorem regionSum_eq (B : Nat → Byte) (off len : Nat) :
    regionSum B off len = wordSum B off (len / 2) + (trailingWord B off len).setWidth 32 := by
  unfold regionSum trailingWord
  split
  · rfl
  · exact (BitVec.add_zero _).symm

/-! ### The exact sum (R173) -/

/-- Adding a 16-bit word below the top of the accumulator has no carry out. -/
theorem toNat_add_word {sum : Word} (h : sum.toNat ≤ 0xFFFF0000) (v : Half) :
    (sum + v.setWidth 32).toNat = sum.toNat + v.toNat := by
  have := v.isLt
  simp only [BitVec.toNat_add, BitVec.toNat_setWidth]
  omega

theorem wordSum_le (B : Nat → Byte) (off : Nat) : ∀ n ≤ 65536, (wordSum B off n).toNat ≤ 0xFFFF * n
  | 0, _ => Nat.le_refl 0
  | n + 1, hn => by
    have ih := wordSum_le B off n (by omega)
    have := (regionWord B off n).isLt
    rw [wordSum_succ, toNat_add_word (by omega)]
    omega

theorem wordSum_succ_toNat (B : Nat → Byte) (off : Nat) {n : Nat} (hn : n ≤ 65536) :
    (wordSum B off (n + 1)).toNat = (wordSum B off n).toNat + (regionWord B off n).toNat :=
  toNat_add_word (by have := wordSum_le B off n hn; omega) _

theorem wordSum_toNat (B : Nat → Byte) (off : Nat) {n : Nat} (hn : n ≤ 65536) :
    (wordSum B off n).toNat = ((List.range n).map fun j => (regionWord B off j).toNat).sum := by
  induction n with
  | zero => rfl
  | succ n ih =>
    rw [wordSum_succ_toNat B off (by omega), ih (by omega), List.range_succ, List.map_append, List.sum_append,
      List.map_singleton, List.sum_singleton]

theorem regionSum_toNat (B : Nat → Byte) (off : Nat) {len : Nat} (hlen : len ≤ 65535) :
    (regionSum B off len).toNat = (wordSum B off (len / 2)).toNat + (trailingWord B off len).toNat := by
  have := wordSum_le B off (len / 2) (by omega)
  rw [regionSum_eq, toNat_add_word (by omega)]

theorem regionSum_le (B : Nat → Byte) (off : Nat) {len : Nat} (hlen : len ≤ 65535) :
    (regionSum B off len).toNat ≤ 0x7FFF7F01 := by
  have := wordSum_le B off (len / 2) (by omega)
  have := trailingWord_le B off len
  rw [regionSum_toNat B off hlen]
  omega

/-! ### The sum 0 -/

theorem regionWord_toNat_eq_zero_iff {B : Nat → Byte} {off j : Nat} :
    (regionWord B off j).toNat = 0 ↔ B (off + 2 * j) = 0#8 ∧ B (off + 2 * j + 1) = 0#8 := by
  rw [regionWord_toNat, BitVec.toNat_eq, BitVec.toNat_eq, BitVec.toNat_ofNat]
  omega

theorem trailingWord_toNat_eq_zero_iff {B : Nat → Byte} {off len : Nat} :
    (trailingWord B off len).toNat = 0 ↔ (len % 2 = 1 → B (off + len - 1) = 0#8) := by
  rw [trailingWord_toNat, BitVec.toNat_eq, BitVec.toNat_ofNat]
  split <;> omega

theorem wordSum_toNat_eq_zero_iff {B : Nat → Byte} {off n : Nat} (hn : n ≤ 65536) :
    (wordSum B off n).toNat = 0 ↔ ∀ i < 2 * n, B (off + i) = 0#8 := by
  induction n with
  | zero => simp [wordSum]
  | succ n ih =>
    rw [wordSum_succ_toNat B off (by omega), Nat.add_eq_zero_iff, ih (by omega), regionWord_toNat_eq_zero_iff,
      Nat.mul_succ, Nat.forall_lt_succ_right, Nat.forall_lt_succ_right, and_assoc]
    rfl

/-- With no carry lost, a region sums to 0 only if each of its bytes is 0. -/
theorem regionSum_eq_zero_iff {B : Nat → Byte} {off len : Nat} (hlen : len ≤ 65535) :
    regionSum B off len = 0#32 ↔ ∀ i < len, B (off + i) = 0#8 := by
  have hzero : regionSum B off len = 0#32 ↔ (regionSum B off len).toNat = 0 := BitVec.toNat_eq
  rw [hzero, regionSum_toNat B off hlen, Nat.add_eq_zero_iff, wordSum_toNat_eq_zero_iff (by omega),
    trailingWord_toNat_eq_zero_iff]
  constructor
  · rintro ⟨hwords, htrail⟩ i hi
    obtain hlt | ⟨rfl, hodd⟩ : i < 2 * (len / 2) ∨ i = len - 1 ∧ len % 2 = 1 := by omega
    · exact hwords i hlt
    · rw [← Nat.add_sub_assoc (by omega)]
      exact htrail hodd
  · intro hall
    refine ⟨fun i hi => hall i (by omega), fun hodd => ?_⟩
    rw [Nat.add_sub_assoc (by omega)]
    exact hall _ (by omega)

/-! ### The order of the words (R178) -/

/-- As a sum of 32-bit words modulo 2^32, at any length. -/
theorem wordSum_eq_sum (B : Nat → Byte) (off n : Nat) :
    wordSum B off n = (((List.range n).map (regionWord B off)).map (BitVec.setWidth 32)).sum := by
  induction n with
  | zero => rfl
  | succ n ih => simp [wordSum_succ, ih, List.range_succ]

theorem wordSum_perm {B B' : Nat → Byte} {off off' n : Nat}
    (h : ((List.range n).map (regionWord B off)).Perm ((List.range n).map (regionWord B' off'))) :
    wordSum B off n = wordSum B' off' n := by
  rw [wordSum_eq_sum, wordSum_eq_sum]
  exact (h.map _).sum_eq

theorem trailingWord_congr {B B' : Nat → Byte} {off off' len : Nat}
    (h : len % 2 = 1 → B (off + len - 1) = B' (off' + len - 1)) :
    trailingWord B off len = trailingWord B' off' len := by
  unfold trailingWord
  split
  next hodd => rw [h hodd]
  next => rfl

/-! ### The obligations -/

/-- Settles O10: no addition carries out of the accumulator, since each word adds at most 0xFFFF. -/
theorem accumulatorNeverOverflows : Obligations.AccumulatorNeverOverflows := by
  intro B off len hlen
  refine ⟨?exact, regionSum_le B off hlen⟩
  rw [regionSum_toNat B off hlen, wordSum_toNat B off (by omega), trailingWord_toNat]
  simp only [regionWord_toNat]

/-- Settles O14: a sum depends on the region's bytes only, and addition in the accumulator is commutative. -/
theorem checksumDependsOnWordsOnly : Obligations.ChecksumDependsOnWordsOnly := by
  refine ⟨fun B B' off off' len => checksum_congr, fun B B' off off' len hwords htrail => ?_⟩
  rw [checksum, checksum, regionSum_eq, regionSum_eq, wordSum_perm hwords, trailingWord_congr htrail]

end Sys2Proof.Machine
end

section
/-!
PROOFS. The folding and the result (40_checksum.md R174, R175): the passes of the loop, the values 0 and 0xFFFF, and a
region that holds its own checksum (R177).
-/

namespace Sys2Proof.Machine

/-! ### The passes of the loop (R174) -/

theorem foldLoop_of_le {sum : Word} (h : sum ≤ 0xFFFF#32) : ∀ fuel, foldLoop fuel sum = sum
  | 0 => rfl
  | _ + 1 => if_neg (BitVec.not_lt.2 h)

theorem foldLoop_succ_of_not_le {sum : Word} (h : ¬ sum ≤ 0xFFFF#32) (fuel : Nat) :
    foldLoop (fuel + 1) sum = foldLoop fuel (foldPass sum) :=
  if_pos (BitVec.not_le.1 h)

theorem foldPass_le (sum : Word) : foldPass sum ≤ 0x1FFFE#32 := by
  rw [BitVec.le_def, foldPass_toNat, BitVec.toNat_ofNat]
  have := sum.isLt
  omega

theorem foldPass_foldPass_le (sum : Word) : foldPass (foldPass sum) ≤ 0xFFFF#32 := by
  have h : (foldPass sum).toNat ≤ 0x1FFFE := foldPass_le sum
  rw [BitVec.le_def, foldPass_toNat, BitVec.toNat_ofNat]
  omega

theorem foldSum_eq_passes (sum : Word) :
    foldSum sum =
      if sum ≤ 0xFFFF#32 then sum
        else if foldPass sum ≤ 0xFFFF#32 then foldPass sum else foldPass (foldPass sum) := by
  unfold foldSum
  split_ifs with h0 h1
  · exact foldLoop_of_le h0 _
  · rw [foldLoop_succ_of_not_le h0, foldLoop_of_le h1]
  · rw [foldLoop_succ_of_not_le h0, foldLoop_succ_of_not_le h1, foldLoop_of_le (foldPass_foldPass_le sum)]

theorem foldPass_eq_and_add_shift (sum : Word) : foldPass sum = (sum &&& 0xFFFF#32) + (sum >>> 16) := by
  apply BitVec.eq_of_toNat_eq
  have hand : sum.toNat &&& 65535 % 2 ^ 32 = sum.toNat % 65536 := Nat.and_two_pow_sub_one_eq_mod _ 16
  have := sum.isLt
  simp only [foldPass_toNat, BitVec.toNat_add, BitVec.toNat_and, BitVec.toNat_ushiftRight, BitVec.toNat_ofNat,
    Nat.shiftRight_eq_div_pow, hand]
  omega

theorem foldSum_eq_zero_iff {sum : Word} : foldSum sum = 0#32 ↔ sum = 0#32 := by
  rw [BitVec.toNat_eq, BitVec.toNat_eq, foldSum_toNat, BitVec.toNat_ofNat]
  split <;> omega

/-! ### The corner values of the result (R175) -/

theorem checksum_eq_ones_iff {B : Nat → Byte} {off len : Nat} :
    checksum B off len = 0xFFFF#16 ↔ regionSum B off len = 0#32 := by
  have := foldSum_le (regionSum B off len)
  rw [← foldSum_eq_zero_iff, BitVec.toNat_eq, BitVec.toNat_eq, checksum_toNat, BitVec.toNat_ofNat, BitVec.toNat_ofNat]
  omega

theorem checksum_eq_zero_iff {B : Nat → Byte} {off len : Nat} :
    checksum B off len = 0#16 ↔ foldSum (regionSum B off len) = 0xFFFF#32 := by
  have := foldSum_le (regionSum B off len)
  rw [BitVec.toNat_eq, BitVec.toNat_eq, checksum_toNat, BitVec.toNat_ofNat, BitVec.toNat_ofNat]
  omega

/-! ### A region that holds its own checksum (R177) -/

/-- `B` with the two bytes at `a` and `a + 1` zeroed. -/
def zeroField (B : Nat → Byte) (a : Nat) : Nat → Byte := fun i => if i = a ∨ i = a + 1 then 0#8 else B i

theorem zeroField_of_ne {a i : Nat} (B : Nat → Byte) (h : i ≠ a) (h' : i ≠ a + 1) : zeroField B a i = B i :=
  if_neg (not_or.2 ⟨h, h'⟩)

theorem regionWord_zeroField (B : Nat → Byte) (off q : Nat) :
    regionWord (zeroField B (off + 2 * q)) off q = 0#16 := by
  simp [regionWord, zeroField, be16]

theorem regionWord_zeroField_of_ne (B : Nat → Byte) (off : Nat) {q j : Nat} (h : j ≠ q) :
    regionWord (zeroField B (off + 2 * q)) off j = regionWord B off j := by
  rw [regionWord, zeroField_of_ne B (by omega) (by omega), zeroField_of_ne B (by omega) (by omega), regionWord]

theorem trailingWord_zeroField (B : Nat → Byte) (off : Nat) {q len : Nat} (h : 2 * q + 1 < len) :
    trailingWord (zeroField B (off + 2 * q)) off len = trailingWord B off len :=
  trailingWord_congr fun _ => zeroField_of_ne B (by omega) (by omega)

/-- Zeroing word `q` takes it out of the sum. -/
theorem wordSum_zeroField (B : Nat → Byte) (off : Nat) {q n : Nat} (h : q < n) :
    wordSum B off n = wordSum (zeroField B (off + 2 * q)) off n + (regionWord B off q).setWidth 32 := by
  induction n, h using Nat.le_induction with
  | base =>
    have hbelow : wordSum (zeroField B (off + 2 * q)) off q = wordSum B off q :=
      wordSum_congr fun i hi => zeroField_of_ne B (by omega) (by omega)
    rw [wordSum_succ, wordSum_succ, regionWord_zeroField, hbelow, BitVec.setWidth_zero, BitVec.add_zero]
  | succ n hn ih =>
    rw [wordSum_succ, wordSum_succ, regionWord_zeroField_of_ne B off (by omega), ih, add_right_comm]

theorem regionSum_zeroField (B : Nat → Byte) (off : Nat) {q len : Nat} (h : 2 * q + 1 < len) :
    regionSum B off len = regionSum (zeroField B (off + 2 * q)) off len + (regionWord B off q).setWidth 32 := by
  rw [regionSum_eq, regionSum_eq, wordSum_zeroField B off (q := q) (by omega), trailingWord_zeroField B off h,
    add_right_comm]

/-- A sum to which the complement of its own folded value is added folds to 0xFFFF. -/
theorem foldSum_add_complement {sum : Word} {c : Half} (hsum : sum.toNat ≤ 0xFFFF0000)
    (hc : c.toNat = 65535 - (foldSum sum).toNat) : foldSum (sum + c.setWidth 32) = 0xFFFF#32 := by
  apply BitVec.eq_of_toNat_eq
  rw [foldSum_toNat] at hc
  rw [foldSum_toNat, toNat_add_word hsum, BitVec.toNat_ofNat]
  split at hc
  case isTrue hzero => simp [hc, hzero]
  case isFalse hpos => rw [if_neg (by omega)]; omega

/-- A region verifies once the word at an even place is the checksum it has with that word 0. -/
theorem checksum_eq_zero_of_holds_own {B : Nat → Byte} {off len q : Nat} (hlen : len ≤ 65535) (hq : 2 * q + 1 < len)
    (hc : regionWord B off q = checksum (zeroField B (off + 2 * q)) off len) : checksum B off len = 0#16 := by
  have hle := regionSum_le (zeroField B (off + 2 * q)) off hlen
  rw [checksum_eq_zero_iff, regionSum_zeroField B off hq]
  exact foldSum_add_complement (by omega) (by rw [hc, checksum_toNat])

/-! ### The obligations -/

/-- Settles O11: the first pass leaves at most 0x1FFFE, so the second leaves at most 0xFFFF and the loop ends there. -/
theorem foldingEndsInTwoPasses : Obligations.FoldingEndsInTwoPasses :=
  ⟨fun sum => ⟨foldSum_eq_passes sum, BitVec.le_def.2 (foldSum_le sum), foldPass_le sum,
    foldPass_eq_and_add_shift sum, foldSum_eq_zero_iff⟩, fun _ _ _ => regionSum_eq_zero_iff⟩

/-- Settles O12: the folded sum has 16 bits, so its complement is 0xFFFF minus it. -/
theorem checksumComplementsTheFoldedSum : Obligations.ChecksumComplementsTheFoldedSum := fun B off len hlen =>
  ⟨checksum_toNat B off len, checksum_eq_ones_iff.trans (regionSum_eq_zero_iff hlen), checksum_eq_zero_iff⟩

/-- Settles O13: the field adds the complement of the rest's folded sum. -/
theorem embeddedChecksumVerifies : Obligations.EmbeddedChecksumVerifies := by
  intro B off len p hlen heven hp hc
  obtain ⟨q, rfl⟩ : ∃ q, p = 2 * q := ⟨p / 2, by omega⟩
  exact checksum_eq_zero_of_holds_own hlen hp hc

end Sys2Proof.Machine
end

section
/-!
PROOFS. What ENCODE leaves (41_encode.md R202 to R204): its checksum in the message and in CSUM_RES, a length inside TXB,
and everything but its message and its results as it was.
-/

namespace Sys2Proof.Machine

/-! ### The checksum ENCODE stores (R202) -/

/-- The message ENCODE leaves holds, in word 1, the checksum it has with that word 0, so it verifies. -/
theorem checksum_encodeRequest {s : State} (h : totalSize s ≤ s.cfg.txbuf) :
    checksum (txByte (encodeRequest s)) 0 (totalSize s) = 0#16 :=
  have hword : 2 * 1 + 1 < totalSize s := by simp only [totalSize]; omega
  checksum_eq_zero_of_holds_own (totalSize_le h) hword
    ((checksumField_encodeRequest s).trans (requestChecksum_eq_zeroed s))

/-! ### What ENCODE leaves unchanged (R204) -/

/-- Past its message ENCODE leaves TXB as it was: bytes 2 and 3 lie in the message. -/
theorem txByte_encodeRequest_past (s : State) {i : Nat} (h : totalSize s ≤ i) :
    txByte (encodeRequest s) i = txByte s i := by
  have hhead : 16 ≤ i := (Nat.le_add_right 16 _).trans h
  rw [txByte_encodeRequest_of_ne s (by omega) (by omega), txByte_writeRequest_past s h]

/-- A field that ENCODE may write is its own new value here; every other one is the lemma about it. -/
theorem encodeRequest_frame (s : State) :
    encodeRequest s =
      { s with
        txb := (encodeRequest s).txb, txLen := (encodeRequest s).txLen
        csumRes := (encodeRequest s).csumRes, status := (encodeRequest s).status } := by
  apply State.ext <;> simp

/-! ### The obligations -/

/-- Settles O16: both checksums are over the TX_LEN bytes of the message, and the stored bytes are the two of CSUM_RES. -/
theorem encodeStoresItsChecksum : Obligations.EncodeStoresItsChecksum := by
  intro s hfits
  have hfits : totalSize s ≤ s.cfg.txbuf := hfits
  refine ⟨encodeRequest s, exec_encode hfits, ?_⟩
  rw [encodeRequest_csumRes, encodeRequest_txLen_toNat hfits]
  exact ⟨requestChecksum_eq_zeroed s, txByte_encodeRequest s 2, txByte_encodeRequest s 3, checksum_encodeRequest hfits⟩

/-- Settles O17: PLEN's upper bound is 16 below P_TXBUF, so ENCODE completes, and TX_LEN holds the size without wrap. -/
theorem messageAlwaysFits : Obligations.MessageAlwaysFits := by
  intro s hpos hle
  have hbound : 16 + s.plen.toNat ≤ s.cfg.maxdg - 1 := by omega
  have hfits : totalSize s ≤ s.cfg.txbuf := hbound
  have hlen : (encodeRequest s).txLen.toNat = 16 + s.plen.toNat := encodeRequest_txLen_toNat hfits
  exact ⟨encodeRequest s, exec_encode hfits, hlen, by omega, by omega, rfl⟩

/-- Settles O18: the bytes past the message by the lemma about TXB, the other fields by the frame of `encodeRequest`. -/
theorem encodeChangesOnlyItsMessage : Obligations.EncodeChangesOnlyItsMessage := fun s hfits =>
  ⟨encodeRequest s, exec_encode hfits, fun _ => txByte_encodeRequest_past s, encodeRequest_frame s⟩

end Sys2Proof.Machine
end

section
/-!
PROOFS. DECODE (42_decode.md R240 to R251): its outcome by RX_LEN and HLEN, what an accepted datagram leaves in the
result registers, and the echo of an encoded request.
-/

namespace Sys2Proof.Machine

variable {s : State}

/-! ### The outcome (R242, R244, R249) -/

theorem exec_decode (s : State) : exec .decode s = .next (decodeDatagram s) := rfl

/-- The state DECODE answers where it accepts. -/
def acceptedState (s : State) : State := { acceptDatagram (parsedIhl s) s with draws := s.draws + decodeReads }

theorem exec_decode_accepts (hr : s.rxLen.toNat ≤ s.cfg.rxbuf) (h8 : headerLen (parsedIhl s) + 8 ≤ s.rxLen.toNat) :
    exec .decode s = .next (acceptedState s) := by
  rw [exec_decode, decode_accepts hr h8]
  rfl

/-- With RX_LEN in range, the integers RX_LEN and HLEN + 8 decide between success and MALFORMED. -/
theorem decodeDatagram_status (hr : s.rxLen.toNat ≤ s.cfg.rxbuf) :
    (decodeDatagram s).status =
      if headerLen (parsedIhl s) + 8 ≤ s.rxLen.toNat then statusSuccess else statusError .malformed := by
  split
  case isTrue h8 => rw [decode_accepts hr h8]; rfl
  case isFalse h8 => rw [decode_rejects hr (Nat.not_le.1 h8)]; rfl

/-- With RX_LEN in range, IHL and HLEN are the parsed ones, whichever the outcome. -/
theorem decodeDatagram_rxIp (hr : s.rxLen.toNat ≤ s.cfg.rxbuf) :
    ∃ ttl, (decodeDatagram s).rxIp = parsedIp (parsedIhl s) ttl := by
  by_cases h8 : headerLen (parsedIhl s) + 8 ≤ s.rxLen.toNat
  · exact ⟨rxPeek s 8 7, by rw [decode_accepts hr h8]; rfl⟩
  · exact ⟨0, by rw [decode_rejects hr (Nat.not_le.1 h8)]; rfl⟩

/-! ### The flags of an accepted datagram (R246) -/

theorem echoFlag_iff {typ : Byte} : echoFlag typ = true ↔ typ = 0#8 := beq_iff_eq

theorem tsvFlag_iff {typ : Byte} {rxLen hlen : Nat} :
    tsvFlag typ rxLen hlen = true ↔ typ = 0#8 ∧ hlen + 16 ≤ rxLen := by
  rw [tsvFlag, Bool.and_eq_true, echoFlag_iff, decide_eq_true_iff]
  exact and_congr_right' (by omega)

theorem acceptedState_echo_iff : (acceptedState s).rxTc.echo = true ↔ (acceptedState s).rxTc.typ = 0#8 := echoFlag_iff

theorem acceptedState_tsv_iff :
    (acceptedState s).rxTc.tsv = true ↔
      (acceptedState s).rxTc.typ = 0#8 ∧ headerLen (parsedIhl s) + 16 ≤ s.rxLen.toNat :=
  tsvFlag_iff

/-! ### The fields of an accepted datagram (R245 to R247) -/

theorem acceptedState_icmplen_toNat (s : State) :
    (acceptedState s).rxIcmplen.toNat = s.rxLen.toNat - headerLen (parsedIhl s) :=
  Nat.mod_eq_of_lt ((Nat.sub_le _ _).trans_lt s.rxLen.isLt)

section Received

variable (h8 : headerLen (parsedIhl s) + 8 ≤ s.rxLen.toNat)
include h8

theorem acceptedState_typ : (acceptedState s).rxTc.typ = rxByte s (headerLen (parsedIhl s)) :=
  rxPeek_received 1 (by omega)

theorem acceptedState_code : (acceptedState s).rxTc.code = rxByte s (headerLen (parsedIhl s) + 1) :=
  rxPeek_received 2 (by omega)

theorem acceptedState_idseq :
    (acceptedState s).rxIdseq =
      (rxByte s (headerLen (parsedIhl s) + 4) ++ rxByte s (headerLen (parsedIhl s) + 5)) ++
        (rxByte s (headerLen (parsedIhl s) + 6) ++ rxByte s (headerLen (parsedIhl s) + 7)) := by
  show be32 (rxPeek s _ 3) (rxPeek s _ 4) (rxPeek s _ 5) (rxPeek s _ 6) = _
  rw [rxPeek_received 3 (by omega), rxPeek_received 4 (by omega), rxPeek_received 5 (by omega),
    rxPeek_received 6 (by omega), be32, BitVec.append_assoc]
  rfl

end Received

theorem acceptedState_tsByte (hecho : (acceptedState s).rxTc.echo = true) {k : Nat} (hk : k < 8) :
    tsByte (acceptedState s).rxTsHi (acceptedState s).rxTsLo k = rtsByte s (headerLen (parsedIhl s)) k :=
  tsByte_acceptDatagram hecho k hk

theorem acceptedState_ts_of_not_echo (hecho : (acceptedState s).rxTc.echo = false) :
    (acceptedState s).rxTsHi = 0#32 ∧ (acceptedState s).rxTsLo = 0#32 :=
  have hnot : ¬ echoFlag (rxPeek s (headerLen (parsedIhl s)) 1) = true := Bool.eq_false_iff.1 hecho
  ⟨if_neg hnot, if_neg hnot⟩

/-! ### The obligations -/

/-- Settles O25: the range check comes first, and raising the error changes STATUS alone. -/
theorem decodeRefusesLongRxLen : Obligations.DecodeRefusesLongRxLen := by
  intro s h
  rw [exec_decode, decode_rxlenRange h]
  rfl

/-- Settles O26: with fewer than 8 ICMP bytes, which an empty datagram always has, DECODE is `rejectDatagram`; the empty
datagram's IHL is the read numbered 0. -/
theorem decodeRejectsShortDatagrams : Obligations.DecodeRejectsShortDatagrams := by
  intro s hr hshort
  have h8 : s.rxLen.toNat < headerLen (parsedIhl s) + 8 := by
    rcases hshort with ⟨hpos, hlt⟩ | hzero
    · rwa [headerLen_received hpos]
    · omega
  refine ⟨parsedIhl s, s.draws + decodeReads, parsedIhl_received,
    fun hzero => ⟨s.draws, Nat.le_refl _, ?fresh, ?drawn⟩, ?_⟩
  case fresh => exact Nat.lt_add_of_pos_right (by decide)
  case drawn => rw [parsedIhl, rxPeek_drawn 0 hzero.le, Nat.add_zero]
  rw [exec_decode, decode_rejects hr h8]
  rfl

/-- Settles O27: STATUS and RX_IP of either outcome, by the lemmas about them. -/
theorem decodeAcceptsExactly : Obligations.DecodeAcceptsExactly := by
  intro s hr
  obtain ⟨ttl, hip⟩ := decodeDatagram_rxIp hr
  refine ⟨decodeDatagram s, exec_decode s, ?_⟩
  rw [hip, parsedIp_hlen_toNat, decodeDatagram_status hr]
  refine ⟨parsedIhl_received, rfl, ?_⟩
  split
  case isTrue h8 => exact ⟨iff_of_true rfl (by omega), iff_of_false (by decide) (by omega)⟩
  case isFalse h8 => exact ⟨iff_of_false (by decide) (by omega), iff_of_true rfl (by omega)⟩

/-- Settles O28: the 8 header bytes lie below RX_LEN; byte 8 does too, but for IHL 0 and 8 received bytes. -/
theorem decodeExtractsFields : Obligations.DecodeExtractsFields := by
  intro s h hh h8 hr
  obtain rfl : h = headerLen (parsedIhl s) := hh.trans (headerLen_received (by omega)).symm
  refine ⟨acceptedState s, exec_decode_accepts hr h8, rfl, acceptedState_typ h8, acceptedState_code h8,
    acceptedState_idseq h8, acceptedState_icmplen_toNat s, fun hlong => rxPeek_received 7 hlong,
    fun hle => ⟨by omega, by omega, s.draws + 7, Nat.le_add_right _ _, ?fresh, rxPeek_drawn 7 hle⟩⟩
  exact Nat.add_lt_add_left (by decide : 7 < decodeReads) _

/-- Settles O29: the timestamp bytes are the reads numbered 8 to 15. -/
theorem decodeExtractsTimestamp : Obligations.DecodeExtractsTimestamp := by
  intro s h hh h8 hr
  obtain rfl : h = headerLen (parsedIhl s) := hh.trans (headerLen_received (by omega)).symm
  have htyp := acceptedState_typ h8
  refine ⟨acceptedState s, exec_decode_accepts hr h8, rfl, htyp, acceptedState_code h8, fun hreply => ?reply,
    fun hother => ?other⟩
  case reply =>
    have hecho : (acceptedState s).rxTc.echo = true := acceptedState_echo_iff.2 (htyp.trans hreply)
    refine ⟨hecho, ?tsv, fun k => s.draws + (8 + k), fun j k _ _ hjk => Nat.add_left_cancel (Nat.add_left_cancel hjk),
      fun k hk => ⟨Nat.le_add_right _ _, ?fresh⟩, fun k hk => acceptedState_tsByte hecho hk⟩
    case tsv => rw [acceptedState_tsv_iff, htyp, and_iff_right hreply]; omega
    case fresh => exact Nat.add_lt_add_left (by simp only [decodeReads]; omega) _
  case other =>
    have hecho : (acceptedState s).rxTc.echo = false :=
      Bool.eq_false_iff.2 fun he => hother (htyp.symm.trans (acceptedState_echo_iff.1 he))
    have htsv : (acceptedState s).rxTc.tsv = false :=
      Bool.eq_false_iff.2 fun ht => hother (htyp.symm.trans (acceptedState_tsv_iff.1 ht).1)
    exact ⟨hecho, htsv, acceptedState_ts_of_not_echo hecho⟩

/-- Settles O33: at least 16 ICMP bytes are received, so each byte read is the one ENCODE left, and the 8 timestamp
bytes determine both registers. -/
theorem echoRoundTrip : Obligations.EchoRoundTrip := by
  intro s t u h n hencode hn hh hreply hbytes hlen hr
  obtain ⟨hfits, rfl⟩ := encodeOp_next_iff.1 hencode
  rw [encodeRequest_txLen_toNat hfits, totalSize] at hn
  obtain rfl : h = headerLen (parsedIhl u) := hh.trans (headerLen_received (by omega)).symm
  have h8 : headerLen (parsedIhl u) + 8 ≤ u.rxLen.toNat := by omega
  have htyp : (acceptedState u).rxTc.typ = 0#8 := (acceptedState_typ h8).trans hreply
  have hecho : (acceptedState u).rxTc.echo = true := acceptedState_echo_iff.2 htyp
  have hread : ∀ i, 4 ≤ i → i < 16 → rxByte u (headerLen (parsedIhl u) + i) = txByte (encodeRequest s) i :=
    fun i hlo hhi => hbytes i (by omega) (by omega) (by omega) (by omega)
  have hts : ∀ k, k < 8 →
      tsByte (acceptedState u).rxTsHi (acceptedState u).rxTsLo k = tsByte s.tsHi s.tsLo k := fun k hk => by
    rw [acceptedState_tsByte hecho hk, rtsByte, rxPeek_received _ (by omega), Nat.add_assoc,
      hread (8 + k) (by omega) (by omega), txByte_encodeRequest_timestamp s hk]
  obtain ⟨hhi, hlo⟩ := tsByte_ext hts
  refine ⟨acceptedState u, exec_decode_accepts (by omega) h8, rfl, ?idseq, hhi, hlo, hecho,
    acceptedState_tsv_iff.2 ⟨htyp, by omega⟩, ?icmplen⟩
  case idseq =>
    rw [acceptedState_idseq h8, hread 4 (by decide) (by decide), hread 5 (by decide) (by decide),
      hread 6 (by decide) (by decide), hread 7 (by decide) (by decide), idField_encodeRequest, seqField_encodeRequest]
  case icmplen => rw [acceptedState_icmplen_toNat]; omega

end Sys2Proof.Machine
end

section
/-!
PROOFS. Command words both ways (30_encoding.md R120, R125, R126): decoding an encoded command, encoding a decoded word,
and the words the host's pseudo-instructions write (R141).
-/

namespace Sys2Proof

/-! ### Decoding an encoded command -/

@[simp] theorem bufOfBit_bit (b : Buf) : bufOfBit b.bit = b := by
  cases b <;> rfl

@[simp] theorem bit_bufOfBit (b : Bool) : (bufOfBit b).bit = b := by
  cases b <;> rfl

/-- Settles O2: each command's word meets its row's test, and its fields are the operands. -/
theorem decodeOfEncode : Obligations.DecodeOfEncode := by
  intro i
  cases i with
  | csum buf len =>
    rw [decodeCmd_csum (Laws.MatchesRow.csum buf len), encode, bufField_commandWord, immField_commandWord, bufOfBit_bit]
  | encode => decide
  | decode => decide
  | setplen t => rw [decodeCmd_setplen (Laws.MatchesRow.setplen t), encode, immField_commandWord]
  | seqinc => decide

/-! ### Encoding a decoded word -/

/-- The clause of R126 that a word met, by the command it decodes to. -/
theorem decodeCmd_ok_cases {w : Word} {i : Instr} (h : decodeCmd w = .ok i) :
    (w &&& 0x0000FFEF#32 = 0x00000001#32 ∧ i = .csum (bufOfBit (bufField w)) (immField w)) ∨
    (w = 0x00000002#32 ∧ i = .encode) ∨ (w = 0x00000003#32 ∧ i = .decode) ∨
    (w &&& 0x0000FFFF#32 = 0x00000004#32 ∧ i = .setplen (immField w)) ∨ (w = 0x00000005#32 ∧ i = .seqinc) := by
  unfold decodeCmd at h
  split_ifs at h <;> cases h <;> simp [*]

/-- Settles O3: the row's test fixes OP and RSV, and SETPLEN's also BUF, so the command holds every other field. -/
theorem encodeOfDecode : Obligations.EncodeOfDecode := by
  intro w i h
  rcases decodeCmd_ok_cases h with ⟨hw, rfl⟩ | ⟨rfl, rfl⟩ | ⟨rfl, rfl⟩ | ⟨hw, rfl⟩ | ⟨rfl, rfl⟩
  · obtain ⟨hrsv, hop⟩ := (csum_test w).1 hw
    rw [encode, bit_bufOfBit, ← hop, commandWord_fields w hrsv]
  · decide
  · decide
  · obtain ⟨hrsv, hbuf, hop⟩ := (setplen_test w).1 hw
    rw [encode, ← hbuf, ← hop, commandWord_fields w hrsv]
  · decide

/-- Settles O5: the decoder computes on each word. -/
theorem specWordsDecode : Obligations.SpecWordsDecode := by
  unfold Obligations.SpecWordsDecode
  decide

/-! ### The words of the pseudo-instructions (R141) -/

/-- A command word is IMM16 shifted into place, over the low bits BUF and OP. -/
theorem commandWord_eq_shift_or (imm : Half) (b : Bool) (op : BitVec 4) :
    commandWord imm b op = imm.setWidth 32 <<< 16 ||| (BitVec.ofBool b ++ op).setWidth 32 := by
  apply BitVec.eq_of_getLsbD_eq
  intro i hi
  rw [getLsbD_commandWord]
  simp only [BitVec.getLsbD_or, BitVec.getLsbD_shiftLeft, BitVec.getLsbD_setWidth, BitVec.getLsbD_append,
    BitVec.getLsbD_ofBool]
  by_cases h16 : i < 16
  · by_cases h4 : i < 4
    · simp [h4, h16, hi]
    · by_cases heq : i = 4
      · simp [heq]
      · simp [h4, h16, heq, show i - 4 ≠ 0 by omega]
  · simp [h16, hi, show ¬ i < 4 by omega, show i ≠ 4 by omega, show i - 16 < 32 by omega, show i - 4 ≠ 0 by omega]

/-- Settles O49: both sides are IMM16 shifted into place over the same low bits, or the same constant. -/
theorem pseudoInstructionsAreCommands : Obligations.PseudoInstructionsAreCommands := by
  refine ⟨fun b len => ?csum, by decide, by decide, fun t => ?setplen, by decide⟩
  case csum =>
    rw [encode, commandWord_eq_shift_or]
    cases b <;> rfl
  case setplen =>
    rw [encode, commandWord_eq_shift_or]
    rfl

end Sys2Proof
end

section
/-!
PROOFS. What every command does and leaves alone: the STATUS it ends with (60_exceptions.md R280 to R282), the fields
each one may write (10_state.md R33), and CSUM, SETPLEN and SEQINC case by case (40_checksum.md R176, 41_encode.md R205,
R206).
-/

namespace Sys2Proof.Machine

/-! ### The STATUS a command ends with (R280, R281) -/

/-- A performed command's STATUS: success, or an error with a code. -/
def statusEnded (st : Status) : Prop := st = statusSuccess ∨ ∃ c, c ≠ .none ∧ st = statusError c

theorem statusEnded_success : statusEnded statusSuccess := .inl rfl

theorem statusEnded_error {c : ECode} (hc : c ≠ .none) : statusEnded (statusError c) := .inr ⟨c, hc, rfl⟩

theorem statusEnded_fields {st : Status} (h : statusEnded st) :
    st.busy = false ∧ st.done = true ∧ (st.err = true ↔ st.ecode ≠ .none) := by
  obtain rfl | ⟨c, hc, rfl⟩ := h
  · exact ⟨rfl, rfl, by decide⟩
  · exact ⟨rfl, rfl, iff_of_true rfl hc⟩

theorem exec_statusEnded {i : Instr} {s t : State} (h : exec i s = .next t) : statusEnded t.status := by
  rcases exec_cases h with ⟨_, _, _, rfl | ⟨_, rfl⟩⟩ | ⟨_, _, rfl⟩ |
    ⟨_, rfl | ⟨_, _, rfl⟩ | ⟨_, _, rfl⟩⟩ | ⟨_, _, rfl | ⟨_, _, rfl⟩⟩ | ⟨_, rfl⟩
  · exact statusEnded_error (by decide)
  · exact statusEnded_success
  · exact encodeRequest_status s ▸ statusEnded_success
  · exact statusEnded_error (by decide)
  · exact statusEnded_error (by decide)
  · exact statusEnded_success
  · exact statusEnded_error (by decide)
  · exact statusEnded_success
  · exact statusEnded_success

/-- An error is one of `raise`, which changes STATUS alone, or DECODE's rejection of a datagram. -/
theorem exec_error_cases {i : Instr} {s t : State} (h : exec i s = .next t) (herr : t.status.err = true) :
    (∃ c, c ≠ .none ∧ c ≠ .malformed ∧ t = raise c s) ∨
      (i = .decode ∧ t = { rejectDatagram (parsedIhl s) s with draws := s.draws + decodeReads }) := by
  rcases exec_cases h with ⟨_, _, _, rfl | ⟨_, rfl⟩⟩ | ⟨_, _, rfl⟩ |
    ⟨hi, rfl | ⟨_, _, rfl⟩ | ⟨_, _, rfl⟩⟩ | ⟨_, _, rfl | ⟨_, _, rfl⟩⟩ | ⟨_, rfl⟩
  · exact .inl ⟨.range, by decide, by decide, rfl⟩
  · exact absurd herr (by simp [statusSuccess])
  · exact absurd herr (by simp [statusSuccess])
  · exact .inl ⟨.rxlenRange, by decide, by decide, rfl⟩
  · exact .inr ⟨hi, rfl⟩
  · exact absurd herr (by simp [acceptDatagram, statusSuccess])
  · exact .inl ⟨.plenReject, by decide, by decide, rfl⟩
  · exact absurd herr (by simp [statusSuccess])
  · exact absurd herr (by simp [statusSuccess])

/-! ### What no command changes, and what each one may -/

/-- Every field that some command writes, and no other (10_state.md R33, 41_encode.md R204, 42_decode.md R241). -/
theorem exec_frame {i : Instr} {s t : State} (h : exec i s = .next t) :
    t = { s with
      status := t.status, seq := t.seq, plen := t.plen, txb := t.txb, txLen := t.txLen, csumRes := t.csumRes
      rxIp := t.rxIp, rxTc := t.rxTc, rxIdseq := t.rxIdseq, rxIcmplen := t.rxIcmplen, rxTsHi := t.rxTsHi
      rxTsLo := t.rxTsLo, draws := t.draws } := by
  rcases exec_cases h with ⟨_, _, _, rfl | ⟨_, rfl⟩⟩ | ⟨_, _, rfl⟩ |
    ⟨_, rfl | ⟨_, _, rfl⟩ | ⟨_, _, rfl⟩⟩ | ⟨_, _, rfl | ⟨_, _, rfl⟩⟩ | ⟨_, rfl⟩
  case inr.inl => apply State.ext <;> simp
  all_goals rfl

theorem exec_sameHostData {i : Instr} {s t : State} (h : exec i s = .next t) : sameHostData s t := by
  rw [exec_frame h]
  exact ⟨rfl, rfl, rfl, rfl, rfl, rfl, rfl⟩

theorem exec_sameOutside {i : Instr} {s t : State} (h : exec i s = .next t) : sameOutside s t := by
  rw [exec_frame h]
  exact ⟨rfl, rfl, rfl, rfl, rfl, rfl, rfl⟩

theorem exec_csum_frame {b : Buf} {len : Half} {s t : State} (h : exec (.csum b len) s = .next t) :
    t = { s with status := t.status, csumRes := t.csumRes } := by
  obtain rfl : csum b len s = t := by cases h; rfl
  unfold csum
  split <;> rfl

theorem exec_encode_frame {s t : State} (h : exec .encode s = .next t) :
    t = { s with txb := t.txb, txLen := t.txLen, csumRes := t.csumRes, status := t.status } := by
  obtain ⟨_, rfl⟩ := encodeOp_next_iff.1 h
  exact encodeRequest_frame s

theorem exec_decode_frame {s t : State} (h : exec .decode s = .next t) :
    t = { s with
      status := t.status, rxIp := t.rxIp, rxTc := t.rxTc, rxIdseq := t.rxIdseq, rxIcmplen := t.rxIcmplen
      rxTsHi := t.rxTsHi, rxTsLo := t.rxTsLo, draws := t.draws } := by
  obtain rfl : decodeDatagram s = t := by cases h; rfl
  exact decodeDatagram_frame s

theorem exec_setplen_frame {n : Half} {s t : State} (h : exec (.setplen n) s = .next t) :
    t = { s with status := t.status, plen := t.plen } := by
  obtain rfl : setplen n s = t := by cases h; rfl
  unfold setplen
  split <;> rfl

theorem exec_seqinc_frame {s t : State} (h : exec .seqinc s = .next t) :
    t = { s with status := t.status, seq := t.seq } := by
  cases h; rfl

/-! ### The obligations about every command -/

/-- Settles O7: every command ends with success or with an error that has a code. -/
theorem commandsEndDone : Obligations.CommandsEndDone := fun _ _ _ h => statusEnded_fields (exec_statusEnded h)

/-- Settles O34: none of these fields is in the frame of a command. -/
theorem commandsLeaveHostData : Obligations.CommandsLeaveHostData := by
  intro i s t h
  have hdata := exec_sameHostData h
  have hout := exec_sameOutside h
  obtain ⟨_, _, _, _, _, hrxb, _⟩ := id hdata
  obtain ⟨_, _, _, _, _, hepoch, _⟩ := id hout
  exact ⟨hdata, hout, congrFun (rxByte_congr hrxb hepoch)⟩

/-- Settles O35: each command's own frame leaves the registers of the others. -/
theorem resultsChangeUnderTheirCommands : Obligations.ResultsChangeUnderTheirCommands := by
  intro i s t h
  cases i with
  | csum b len =>
    rw [exec_csum_frame h]
    exact ⟨fun _ => ⟨rfl, rfl, fun _ => rfl⟩, fun _ hcsum => absurd rfl (hcsum b len), fun _ => rfl, fun _ => rfl,
      fun _ => ⟨⟨rfl, rfl, rfl, rfl, rfl, rfl⟩, rfl⟩⟩
  | encode =>
    rw [exec_encode_frame h]
    exact ⟨fun henc => absurd rfl henc, fun henc => absurd rfl henc, fun _ => rfl, fun _ => rfl,
      fun _ => ⟨⟨rfl, rfl, rfl, rfl, rfl, rfl⟩, rfl⟩⟩
  | decode =>
    rw [exec_decode_frame h]
    exact ⟨fun _ => ⟨rfl, rfl, fun _ => rfl⟩, fun _ _ => rfl, fun _ => rfl, fun _ => rfl, fun hdec => absurd rfl hdec⟩
  | setplen n =>
    rw [exec_setplen_frame h]
    exact ⟨fun _ => ⟨rfl, rfl, fun _ => rfl⟩, fun _ _ => rfl, fun hset => absurd rfl (hset n), fun _ => rfl,
      fun _ => ⟨⟨rfl, rfl, rfl, rfl, rfl, rfl⟩, rfl⟩⟩
  | seqinc =>
    rw [exec_seqinc_frame h]
    exact ⟨fun _ => ⟨rfl, rfl, fun _ => rfl⟩, fun _ _ => rfl, fun _ => rfl, fun hseq => absurd rfl hseq,
      fun _ => ⟨⟨rfl, rfl, rfl, rfl, rfl, rfl⟩, rfl⟩⟩

/-- Settles O36: an error other than MALFORMED is `raise`, and MALFORMED is DECODE's rejection. -/
theorem errorsRecordOnlyStatus : Obligations.ErrorsRecordOnlyStatus := by
  intro i s t h herr
  rcases exec_error_cases h herr with ⟨c, hnone, hmal, rfl⟩ | ⟨hi, rfl⟩
  · exact ⟨rfl, hnone, fun _ => rfl, fun hc => absurd hc hmal⟩
  · exact ⟨rfl, ECode.noConfusion, fun hc => absurd rfl hc, fun _ => ⟨hi, rfl⟩⟩

/-! ### The obligations about single commands -/

/-- Settles O6: the engine step decodes CMDL, and a placed word is due at once. -/
theorem stepRunsDecodedCommand : Obligations.StepRunsDecodedCommand := by
  refine ⟨fun s i hb hd hi => (step_due hb hd).trans (engineStep_ok hi), fun s nbits w i hi => ?placed⟩
  have hdec : decodeCmd (tableWord nbits w) = .ok i := by
    unfold decodeTableWord at hi
    split at hi
    next hok => cases hi; exact hok
    next => cases hi
  exact (step_due rfl rfl).trans (engineStep_ok hdec)

/-- Settles O8: the bound is the selected buffer's size. -/
theorem csumOfRegionInside : Obligations.CsumOfRegionInside := by
  intro buf len s h
  have hin : s.csumOff.toNat + len.toNat ≤ bufSize s buf := by cases buf <;> exact h
  have hexec : exec (.csum buf len) s = .next (csum buf len s) := rfl
  rw [hexec, csum_inside hin]
  cases buf <;> rfl

/-- Settles O9: past the selected buffer's size CSUM is `raise`. -/
theorem csumOutsideRaisesRange : Obligations.CsumOutsideRaisesRange := by
  intro buf len s h
  have hout : bufSize s buf < s.csumOff.toNat + len.toNat := by cases buf <;> exact h
  have hexec : exec (.csum buf len) s = .next (csum buf len s) := rfl
  rw [hexec, csum_outside hout]
  rfl

/-- The filler length SETPLEN stores for an accepted size, without wrap. -/
theorem setplen_plen_toNat {n : Half} (h : 16 < n.toNat) : (n - 16#16).toNat = n.toNat - 16 :=
  BitVec.toNat_sub_of_le (BitVec.le_def.2 h.le)

/-- Settles O22: within the bounds SETPLEN completes with PLEN = t - 16. -/
theorem setplenAccepts : Obligations.SetplenAccepts := by
  intro n s hlo hhi
  have hexec : exec (.setplen n) s = .next (setplen n s) := rfl
  rw [setplen_inside hlo hhi] at hexec
  exact ⟨_, hexec, setplen_plen_toNat hlo, rfl⟩

/-- Settles O23: outside the bounds SETPLEN is `raise`. -/
theorem setplenRejects : Obligations.SetplenRejects := by
  intro n s h
  have hexec : exec (.setplen n) s = .next (setplen n s) := rfl
  rw [hexec, setplen_outside h]
  rfl

/-- Settles O24: addition of 1 to a 16-bit register is modulo 65536. -/
theorem seqincAdvances : Obligations.SeqincAdvances := by
  intro s
  have hseq : s.seq + 1#16 = BitVec.ofNat 16 ((s.seq.toNat + 1) % 65536) := by
    apply BitVec.eq_of_toNat_eq
    rw [BitVec.toNat_add, BitVec.toNat_ofNat, BitVec.toNat_ofNat]
    omega
  rw [← hseq]
  rfl

end Sys2Proof.Machine
end

section
/-!
PROOFS. ENCODE's corner cases (41_encode.md R200, R203): a second ENCODE, the checksum's missing value, and the one
fault.
-/

namespace Sys2Proof.Machine

/-! ### ENCODE after ENCODE -/

/-- ENCODE changes none of its operands. -/
theorem requestBytes_encodeRequest (s : State) : requestBytes (encodeRequest s) = requestBytes s := by
  simp [requestBytes]

theorem totalSize_encodeRequest (s : State) : totalSize (encodeRequest s) = totalSize s := by
  simp [totalSize]

/-- The second placeholder message is the first one, and past it TXB is as the first ENCODE left it. -/
theorem txByte_writeRequest_encodeRequest (s : State) (i : Nat) :
    txByte (writeRequest (encodeRequest s)) i = txByte (writeRequest s) i := by
  by_cases hi : totalSize s ≤ i
  · rw [txByte_writeRequest_past _ ((totalSize_encodeRequest s).trans_le hi), txByte_encodeRequest_past s hi,
      txByte_writeRequest_past s hi]
  · have hlt : i < (requestBytes s).length := by rw [requestBytes_length]; omega
    simp only [txByte_writeRequest, requestBytes_encodeRequest, hlt, dite_true]

theorem requestChecksum_encodeRequest (s : State) : requestChecksum (encodeRequest s) = requestChecksum s := by
  rw [requestChecksum, requestChecksum, totalSize_encodeRequest]
  exact checksum_congr fun i _ => txByte_writeRequest_encodeRequest s (0 + i)

/-- Settles O19: the operands, the placeholder message and so the checksum are the same the second time. -/
theorem encodeTwiceIsTheSame : Obligations.EncodeTwiceIsTheSame := by
  intro s t h
  obtain ⟨hfits, rfl⟩ := encodeOp_next_iff.1 h
  have hfits' : totalSize (encodeRequest s) ≤ (encodeRequest s).cfg.txbuf := by
    rwa [totalSize_encodeRequest, encodeRequest_cfg]
  refine ⟨_, exec_encode hfits', fun i => ?bytes, ?length, ?checksum⟩
  case bytes =>
    rw [txByte_encodeRequest (encodeRequest s), requestChecksum_encodeRequest, txByte_writeRequest_encodeRequest,
      ← txByte_encodeRequest]
  case length => rw [encodeRequest_txLen, encodeRequest_txLen, totalSize_encodeRequest]
  case checksum => rw [encodeRequest_csumRes, encodeRequest_csumRes, requestChecksum_encodeRequest]

/-! ### The checksum -/

/-- Settles O20: a checksum of 0xFFFF is that of an all-zero region, and the message's first byte is 8. -/
theorem encodeChecksumIsNeverAllOnes : Obligations.EncodeChecksumIsNeverAllOnes := by
  intro s t h hones
  obtain ⟨hfits, rfl⟩ := encodeOp_next_iff.1 h
  rw [encodeRequest_csumRes, requestChecksum, checksum_eq_ones_iff, regionSum_eq_zero_iff (totalSize_le hfits)] at hones
  have hzero := hones 0 (by simp only [totalSize]; omega)
  rw [txByte_writeRequest_header s (i := 0) (by decide)] at hzero
  exact absurd hzero (by simp [requestHeader])

/-! ### The fault (R203) -/

/-- Under PLEN's bounds the message fits TXB (10_state.md R38). -/
theorem totalSize_le_txbuf {s : State} (h : StateInv s) : totalSize s ≤ s.cfg.txbuf := by
  have hle := h.plen_le
  simp only [totalSize, Params.txbuf]
  omega

/-- Settles O21: ENCODE's own test decides, and the invariant bounds PLEN. -/
theorem encodeStopsOnlyPastTxb : Obligations.EncodeStopsOnlyPastTxb := by
  refine fun s => ⟨?fault, fun h => ⟨_, exec_encode (totalSize_le_txbuf h)⟩⟩
  by_cases hfits : totalSize s ≤ s.cfg.txbuf
  · rw [exec_encode hfits]
    exact iff_of_false (fun hfault => nomatch hfault) (Nat.not_lt.2 hfits)
  · exact iff_of_true (if_neg hfits) (Nat.not_le.1 hfits)

end Sys2Proof.Machine
end

section
/-!
PROOFS. DECODE's frame (42_decode.md R241), what it reads of the receive buffer (R240, R248), and the numbers of its
draws (R240, log 4).
-/

namespace Sys2Proof.Machine

variable {s : State}

/-! ### The draw counter (log 4) -/

/-- A DECODE that reads the buffer moves the draw counter past the numbers of its 16 reads. -/
theorem decodeDatagram_draws (s : State) :
    (decodeDatagram s).draws = if s.cfg.rxbuf < s.rxLen.toNat then s.draws else s.draws + 16 := by
  split
  case isTrue hr => rw [decode_rxlenRange hr]; rfl
  case isFalse hr => rw [decodeDatagram, if_neg hr]; rfl

/-- Settles O30: the frame of `decodeDatagram`, with the draw counter's value put in. -/
theorem decodeChangesOnlyResults : Obligations.DecodeChangesOnlyResults := by
  intro s
  have hframe := decodeDatagram_frame s
  refine ⟨decodeDatagram s, exec_decode s, ?_, congrFun (txByte_congr ?_ ?_), congrFun (rxByte_congr ?_ ?_)⟩
  case refine_1 => rw [← decodeDatagram_draws]; exact hframe
  all_goals rw [hframe]

/-! ### What DECODE reads (R240, R248) -/

/-- Reads at the same index agree once the bytes below RX_LEN do: past it both are the same draw. -/
theorem rxPeek_setRxb {rxb' : Memory} {i : Nat}
    (h : i < s.rxLen.toNat → rxByte { s with rxb := rxb' } i = rxByte s i) (k : Nat) :
    rxPeek { s with rxb := rxb' } i k = rxPeek s i k := by
  unfold rxPeek
  split
  next hi => exact h hi
  next => rfl

/-- The bytes an accepting DECODE reads decide its results: byte 8, and from HLEN on the ICMP header without its
checksum and the timestamp. -/
theorem acceptDatagram_setRxb {rxb' : Memory} (ihl : BitVec 4)
    (httl : rxPeek { s with rxb := rxb' } 8 7 = rxPeek s 8 7)
    (hicmp : ∀ j k, j < 16 → j ≠ 2 → j ≠ 3 →
      rxPeek { s with rxb := rxb' } (headerLen ihl + j) k = rxPeek s (headerLen ihl + j) k) :
    acceptDatagram ihl { s with rxb := rxb' } = { acceptDatagram ihl s with rxb := rxb' } := by
  have htyp : rxPeek { s with rxb := rxb' } (headerLen ihl) 1 = rxPeek s (headerLen ihl) 1 :=
    hicmp 0 1 (by decide) (by decide) (by decide)
  have hrts : ∀ k, k < 8 → rtsByte { s with rxb := rxb' } (headerLen ihl) k = rtsByte s (headerLen ihl) k := by
    intro k hk
    rw [rtsByte, rtsByte, Nat.add_assoc, hicmp (8 + k) _ (by omega) (by omega) (by omega)]
  simp [acceptDatagram, complete, httl, htyp, hicmp, hrts]

/-- DECODE over another receive buffer that agrees on the bytes it reads gives the same results. -/
theorem decodeDatagram_setRxb {rxb' : Memory} (hihl : rxPeek { s with rxb := rxb' } 0 0 = rxPeek s 0 0)
    (httl : rxPeek { s with rxb := rxb' } 8 7 = rxPeek s 8 7)
    (hicmp : ∀ j k, j < 16 → j ≠ 2 → j ≠ 3 →
      rxPeek { s with rxb := rxb' } (headerLen (parsedIhl s) + j) k = rxPeek s (headerLen (parsedIhl s) + j) k) :
    decodeDatagram { s with rxb := rxb' } = { decodeDatagram s with rxb := rxb' } := by
  have hparsed : parsedIhl { s with rxb := rxb' } = parsedIhl s := by rw [parsedIhl, hihl, parsedIhl]
  by_cases hr : s.cfg.rxbuf < s.rxLen.toNat
  · rw [decode_rxlenRange hr, decode_rxlenRange (s := { s with rxb := rxb' }) hr]
    rfl
  · by_cases h8 : s.rxLen.toNat < headerLen (parsedIhl s) + 8
    · rw [decode_rejects (Nat.not_lt.1 hr) h8,
        decode_rejects (s := { s with rxb := rxb' }) (Nat.not_lt.1 hr) (hparsed ▸ h8), hparsed]
      rfl
    · rw [decode_accepts (Nat.not_lt.1 hr) (Nat.not_lt.1 h8),
        decode_accepts (s := { s with rxb := rxb' }) (Nat.not_lt.1 hr) (hparsed ▸ Nat.not_lt.1 h8), hparsed,
        acceptDatagram_setRxb _ httl hicmp]

/-- Settles O31: HLEN is a multiple of 4, so neither byte 0, nor byte 8, nor a byte read from HLEN on is
left out. -/
theorem decodeIgnoresChecksums : Obligations.DecodeIgnoresChecksums := by
  intro s rxb' h hh hsame
  have hpeek : ∀ i k, (i < s.rxLen.toNat → i ≠ h + 2 ∧ i ≠ h + 3 ∧ ¬((i = 10 ∨ i = 11) ∧ 12 ≤ h)) →
      rxPeek { s with rxb := rxb' } i k = rxPeek s i k := fun i k hi =>
    rxPeek_setRxb (fun hlt => hsame i hlt (hi hlt).1 (hi hlt).2.1 (hi hlt).2.2) k
  refine ⟨_, exec_decode s, congrArg Host.Outcome.next (decodeDatagram_setRxb ?ihl ?ttl fun j k hj h2 h3 => ?icmp)⟩
  case ihl => exact hpeek 0 0 fun _ => by omega
  case ttl => exact hpeek 8 7 fun _ => by omega
  case icmp =>
    refine hpeek _ k fun hlt => ?_
    have hlen : headerLen (parsedIhl s) = h := (headerLen_received (by omega)).trans hh.symm
    omega

/-- Settles O32: every read is at an index below RX_LEN, where the buffers agree, or is a draw. -/
theorem decodeReadsReceivedBytesOnly : Obligations.DecodeReadsReceivedBytesOnly := by
  intro s rxb' hsame
  have hpeek : ∀ i k, rxPeek { s with rxb := rxb' } i k = rxPeek s i k := fun i => rxPeek_setRxb (hsame i)
  exact ⟨_, exec_decode s,
    congrArg Host.Outcome.next (decodeDatagram_setRxb (hpeek 0 0) (hpeek 8 7) fun j k _ _ _ => hpeek _ k)⟩

end Sys2Proof.Machine
end

section
/-!
PROOFS. What a step can be (20_memory.md R92): the engine step, and each input of the outside world.
-/

namespace Sys2Proof.Machine

/-! ### The engine step (60_exceptions.md R280) -/

/-- No engine step touches the outside world's part of the state. -/
theorem engineStep_sameOutside {s t : State} (h : engineStep s = .next t) : sameOutside s t := by
  rcases engineStep_cases h with ⟨_, _, hi⟩ | rfl
  · exact exec_sameOutside hi
  · exact ⟨rfl, rfl, rfl, rfl, rfl, rfl, rfl⟩

theorem engineStep_statusEnded {s t : State} (h : engineStep s = .next t) : statusEnded t.status := by
  rcases engineStep_cases h with ⟨_, _, hi⟩ | rfl
  · exact exec_statusEnded hi
  · exact statusEnded_error (by decide)

/-- A command of an invariant state completes: ENCODE's message fits, and no other command can fault. -/
theorem exec_completes (i : Instr) {s : State} (h : StateInv s) : ∃ t, exec i s = .next t := by
  cases i with
  | encode => exact ⟨_, exec_encode (totalSize_le_txbuf h)⟩
  | csum b len => exact ⟨_, rfl⟩
  | decode => exact ⟨_, rfl⟩
  | setplen n => exact ⟨_, rfl⟩
  | seqinc => exact ⟨_, rfl⟩

/-- The engine step of an invariant state completes, an illegal word's too. -/
theorem engineStep_completes {s : State} (h : StateInv s) : ∃ t, engineStep s = .next t := by
  cases hd : decodeCmd s.cmdl with
  | ok i => rw [engineStep_ok hd]; exact exec_completes i h
  | error e => exact ⟨_, engineStep_error hd⟩

/-! ### A host turn (log 5) -/

theorem tick_delay {s : State} (h : s.status.busy = true) : (tick s).delay = s.delay - 1 := by
  rw [tick, if_pos h]

theorem tick_idle {s : State} (h : s.status.busy = false) : tick s = s := by
  rw [tick, h]; rfl

/-! ### The inputs (R84, R141, R320, R322) -/

theorem inputStep_nil {s : State} (h : s.program = []) : inputStep s = .next s := by
  simp only [inputStep, h]

theorem inputStep_access {s : State} {a : Access} {rest : List Input} (h : s.program = .access a :: rest) :
    inputStep s = hostAccess a { s with program := rest } := by
  simp only [inputStep, h]

/-- While a command is pending, `wait` reads STATUS and stays in place (R141). -/
theorem inputStep_wait_busy {s : State} {rest : List Input} (h : s.program = .wait :: rest)
    (hb : s.status.busy = true) :
    inputStep s = .next (noteRead statusRead (.word (statusWord s.status)) s) := by
  simp only [inputStep, h, hb, if_true, hostAccess_status]

/-- With BUSY = 0 `wait` reads STATUS once and is over (R141). -/
theorem inputStep_wait_idle {s : State} {rest : List Input} (h : s.program = .wait :: rest)
    (hb : s.status.busy = false) :
    inputStep s = .next (noteRead statusRead (.word (statusWord s.status)) { s with program := rest }) := by
  simp only [inputStep, h, hb, Bool.false_eq_true, if_false, hostAccess_status]

theorem inputStep_reset {s : State} {rest : List Input} (h : s.program = .reset :: rest) :
    inputStep s = .next (applyReset { s with program := rest }) := by
  simp only [inputStep, h]

/-- Every next state an input can answer: none is left; an access; the STATUS read of `wait`; the reset. -/
theorem inputStep_cases {s t : State} (h : inputStep s = .next t) :
    (s.program = [] ∧ t = s) ∨
    (∃ a rest, s.program = .access a :: rest ∧ hostAccess a { s with program := rest } = .next t) ∨
    (∃ rest left, s.program = .wait :: rest ∧
      t = noteRead statusRead (.word (statusWord s.status)) { s with program := left }) ∨
    (∃ rest, s.program = .reset :: rest ∧ t = applyReset { s with program := rest }) := by
  cases hp : s.program with
  | nil => rw [inputStep_nil hp] at h; cases h; exact .inl ⟨rfl, rfl⟩
  | cons i rest =>
    cases i with
    | access a => rw [inputStep_access hp] at h; exact .inr (.inl ⟨a, rest, rfl, h⟩)
    | wait =>
      refine .inr (.inr (.inl ?_))
      cases hb : s.status.busy with
      | true => rw [inputStep_wait_busy hp hb] at h; cases h; exact ⟨rest, s.program, rfl, rfl⟩
      | false => rw [inputStep_wait_idle hp hb] at h; cases h; exact ⟨rest, rest, rfl, rfl⟩
    | reset => rw [inputStep_reset hp] at h; cases h; exact .inr (.inr (.inr ⟨rest, rfl, rfl⟩))

/-! ### A host access -/

/-- A host access changes STATUS only as a CMD write (10_state.md R34, R35). -/
theorem hostAccess_status_or_cmd {a : Access} {s t : State} (h : hostAccess a s = .next t) :
    t.status = s.status ∨ ∃ v, a = .write (regOffset .cmd) (.word v) ∧ t = launch v s := by
  rcases hostAccess_cases h with ⟨_, rfl⟩ | ⟨_, _, _, rfl⟩ | ⟨_, _, v, ha, ht⟩ |
    ⟨_, _, _, ⟨_, _, _, rfl⟩ | ⟨_, _, _, rfl⟩ | ⟨_, _, _, _, _, _, rfl⟩⟩
  case inr.inr.inl => exact .inr ⟨v, ha, ht⟩
  all_goals exact .inl rfl

/-- A host access leaves the inputs to come alone. -/
theorem hostAccess_program {a : Access} {s t : State} (h : hostAccess a s = .next t) : t.program = s.program := by
  rcases hostAccess_cases h with ⟨_, rfl⟩ | ⟨_, _, _, rfl⟩ | ⟨_, _, v, _, rfl⟩ |
    ⟨_, _, _, ⟨_, _, _, rfl⟩ | ⟨_, _, _, rfl⟩ | ⟨_, _, _, _, _, _, rfl⟩⟩
  case inr.inr.inl => exact launch_program s v
  all_goals rfl

/-- Only a CMD write opens the window (70_reset_and_hazards.md R335). -/
theorem hazardWindow_of_hostAccess {a : Access} {s t : State} (h : hostAccess a s = .next t)
    (hw : hazardWindow t = true) : hazardWindow s = true ∨ isCmdWrite a = true := by
  rcases hostAccess_cases h with ⟨_, rfl⟩ | ⟨_, _, _, rfl⟩ | ⟨_, _, _, rfl, _⟩ |
    ⟨_, _, _, ⟨_, _, _, rfl⟩ | ⟨_, _, _, rfl⟩ | ⟨_, _, _, _, _, _, rfl⟩⟩
  case inl | inr.inl =>
    simp only [hazardWindow, noteRead_status, noteRead_awaiting, Bool.or_eq_true, Bool.and_eq_true] at hw ⊢
    exact .inl (hw.imp_right And.left)
  case inr.inr.inl => exact .inr rfl
  all_goals exact .inl hw

/-- A legal access that keeps to the window completes (20_memory.md R84, 70_reset_and_hazards.md R335). -/
theorem hostAccess_completes {a : Access} {s : State} (hl : legalAccess a.off a.width = true)
    (hw : hazardWindow s = true → a = statusRead) : ∃ t, hostAccess a s = .next t := by
  cases hz : hazardWindow s with
  | true => rw [hw hz]; exact ⟨_, hostAccess_status s⟩
  | false =>
    cases a with
    | read off w => exact ⟨_, hostAccess_read hl hz⟩
    | write off d => exact ⟨_, hostAccess_write hz (if_pos hl)⟩

end Sys2Proof.Machine
end

section
/-!
PROOFS. The invariant of the block (10_state.md R38, R44, R45, R52, R53): reset meets it and every step keeps it.
-/

namespace Sys2Proof.Machine

variable {s : State}

/-! ### Reset (70_reset_and_hazards.md R320) -/

/-- The register values of reset meet the invariant, whatever the parameters are: PLEN = 32 and P_MAXDG ≥ 49. -/
theorem stateInv_reset_params (P : Params) : StateInv { State.reset with cfg := P } where
  plen_pos := show 1 ≤ (32 : Half).toNat by decide
  plen_le := P.maxdg_ge
  tx_wf := memWf_nil _
  rx_wf := memWf_nil _
  busy_pending := fun hb => absurd hb Bool.false_ne_true
  window_status := fun hw => absurd hw Bool.false_ne_true
  err_ecode := iff_of_false Bool.false_ne_true fun hcode => hcode rfl
  err_done := fun he => absurd he Bool.false_ne_true
  hlen_ihl := rfl
  echo_typ := fun _ => rfl
  echo_len := fun he => absurd he Bool.false_ne_true
  tsv_iff := iff_of_false Bool.false_ne_true fun he => Bool.false_ne_true he.1
  ts_zero := fun _ => ⟨rfl, rfl⟩
  icmp_fits := .inl rfl
  tx_len := .inl rfl

/-- Settles O52: the reset values with the block's own parameters. -/
theorem resetMeetsInvariant : Obligations.ResetMeetsInvariant := stateInv_reset_params Config.params

/-- The reset input's registers are those of reset, under the parameters the block has. -/
theorem stateInv_applyReset (s : State) : StateInv (applyReset s) :=
  { stateInv_reset_params s.cfg with }

/-! ### Commands (60_exceptions.md R280) -/

theorem stateInv_complete (h : StateInv s) : StateInv (complete s) := stateInv_status h rfl rfl (by decide)

theorem stateInv_raise {c : ECode} (hc : c ≠ .none) (h : StateInv s) : StateInv (raise c s) :=
  stateInv_status h rfl rfl (iff_of_true rfl hc)

/-- ENCODE writes inside TXB only, and stores a length of at least 17 (41_encode.md R203, R204). -/
theorem stateInv_encodeRequest (h : StateInv s) : StateInv (encodeRequest s) := by
  have hfits := totalSize_le_txbuf h
  have hlen := encodeRequest_txLen_toNat hfits
  have hsize : 17 ≤ totalSize s := Nat.add_le_add_left h.plen_pos 16
  have hmessage : Memory.wf s.cfg.txbuf (writeRequest s).txb = true := by
    rw [writeRequest_txb]
    exact memWf_memSetMany _ (by rw [requestBytes_length]; omega) h.tx_wf
  have hwf : Memory.wf s.cfg.txbuf (encodeRequest s).txb = true := by
    rw [encodeRequest_txb]
    exact memWf_memSet _ (by omega) (memWf_memSet _ (by omega) hmessage)
  have hinv : StateInv { s with txb := (encodeRequest s).txb, txLen := (encodeRequest s).txLen
                                csumRes := (encodeRequest s).csumRes } :=
    { h with tx_wf := hwf, tx_len := .inr (by rw [hlen]; exact ⟨hsize, hfits⟩) }
  rw [encodeRequest_frame, encodeRequest_status]
  exact stateInv_complete hinv

/-- A rejected datagram keeps HLEN = 4 * IHL and leaves no message (42_decode.md R249). -/
theorem stateInv_rejectDatagram (h : StateInv s) (ihl : BitVec 4) (d : Nat) :
    StateInv { rejectDatagram ihl s with draws := d } :=
  stateInv_raise (s := { s with
      rxIp := parsedIp ihl 0, rxTc := ⟨0, 0, false, false⟩, rxIdseq := 0, rxIcmplen := 0, rxTsHi := 0, rxTsLo := 0
      draws := d }) (c := .malformed) (by decide)
    { h with
      hlen_ihl := parsedIp_hlen_toNat ihl 0
      echo_typ := fun _ => rfl
      echo_len := fun he => absurd he Bool.false_ne_true
      tsv_iff := iff_of_false Bool.false_ne_true fun he => Bool.false_ne_true he.1
      ts_zero := fun _ => ⟨rfl, rfl⟩
      icmp_fits := .inl rfl }

/-- An accepted datagram's ICMP message has at least 8 bytes and lies inside RXB (42_decode.md R244, R246, R247). -/
theorem stateInv_acceptedState (h : StateInv s) (hr : s.rxLen.toNat ≤ s.cfg.rxbuf)
    (h8 : headerLen (parsedIhl s) + 8 ≤ s.rxLen.toNat) : StateInv (acceptedState s) := by
  have hlen := acceptedState_icmplen_toNat s
  have hhlen : (acceptedState s).rxIp.hlen.toNat = headerLen (parsedIhl s) := parsedIp_hlen_toNat _ _
  have htsv : (acceptedState s).rxTc.tsv = true ↔
      (acceptedState s).rxTc.echo = true ∧ 16 ≤ (acceptedState s).rxIcmplen.toNat := by
    rw [acceptedState_tsv_iff, acceptedState_echo_iff, hlen]
    exact and_congr_right' (by omega)
  have hfits : (acceptedState s).rxIp.hlen.toNat + (acceptedState s).rxIcmplen.toNat ≤ s.cfg.rxbuf := by omega
  exact stateInv_complete (s := { acceptedState s with status := s.status })
    { h with
      hlen_ihl := hhlen
      echo_typ := acceptedState_echo_iff.1
      echo_len := fun _ => show 8 ≤ (acceptedState s).rxIcmplen.toNat by omega
      tsv_iff := htsv
      ts_zero := acceptedState_ts_of_not_echo
      icmp_fits := .inr hfits }

/-- SETPLEN stores only a filler length within PLEN's bounds (41_encode.md R205). -/
theorem stateInv_setplen (h : StateInv s) {n : Half} (hlo : 16 < n.toNat) (hhi : n.toNat < s.cfg.maxdg) :
    StateInv (complete { s with plen := n - 16#16 }) := by
  have hplen := setplen_plen_toNat hlo
  exact stateInv_complete (s := { s with plen := n - 16#16 })
    { h with
      plen_pos := show 1 ≤ (n - 16#16).toNat by omega
      plen_le := show (n - 16#16).toNat + 17 ≤ s.cfg.maxdg by omega }

theorem stateInv_exec {i : Instr} {t : State} (h : StateInv s) (he : exec i s = .next t) : StateInv t := by
  rcases exec_cases he with ⟨_, _, _, rfl | ⟨c, rfl⟩⟩ | ⟨_, _, rfl⟩ |
    ⟨_, rfl | ⟨_, _, rfl⟩ | ⟨hr, h8, rfl⟩⟩ | ⟨_, _, rfl | ⟨hlo, hhi, rfl⟩⟩ | ⟨_, rfl⟩
  · exact stateInv_raise (by decide) h
  · exact stateInv_complete (s := { s with csumRes := c }) { h with }
  · exact stateInv_encodeRequest h
  · exact stateInv_raise (by decide) h
  · exact stateInv_rejectDatagram h _ _
  · exact stateInv_acceptedState h hr h8
  · exact stateInv_raise (by decide) h
  · exact stateInv_setplen h hlo hhi
  · exact stateInv_complete (s := { s with seq := s.seq + 1#16 }) { h with }

theorem stateInv_engineStep {t : State} (h : StateInv s) (he : engineStep s = .next t) : StateInv t := by
  rcases engineStep_cases he with ⟨_, _, hi⟩ | rfl
  · exact stateInv_exec h hi
  · exact stateInv_raise (by decide) h

/-! ### Inputs -/

theorem stateInv_tick (h : StateInv s) : StateInv (tick s) := by
  unfold tick
  split
  · exact { h with }
  · exact h

/-- A read leaves the window open while a command is pending (70_reset_and_hazards.md R335). -/
theorem stateInv_noteRead (h : StateInv s) (a : Access) (d : BusData) : StateInv (noteRead a d s) :=
  { h with
    busy_pending := fun hb => by
      obtain ⟨hst, haw⟩ := h.busy_pending hb
      have hb : s.status.busy = true := hb
      exact ⟨hst, by simp [haw, hb]⟩
    window_status := fun hw => h.window_status (Bool.and_eq_true_iff.1 hw).1 }

theorem stateInv_hostAccess {a : Access} {t : State} (h : StateInv s) (ha : hostAccess a s = .next t) :
    StateInv t := by
  rcases hostAccess_cases ha with ⟨_, rfl⟩ | ⟨_, _, _, rfl⟩ | ⟨_, _, v, _, rfl⟩ |
    ⟨_, _, _, ⟨i, v, hi, rfl⟩ | ⟨i, v, hi, rfl⟩ | ⟨_, _, _, _, _, _, rfl⟩⟩
  · exact stateInv_noteRead h _ _
  · exact stateInv_noteRead h _ _
  · exact stateInv_launch v h
  · exact { h with tx_wf := memWf_memSet v hi h.tx_wf }
  · exact { h with rx_wf := memWf_memSet v hi h.rx_wf }
  · exact { h with }

theorem stateInv_inputStep {t : State} (h : StateInv s) (hi : inputStep s = .next t) : StateInv t := by
  rcases inputStep_cases hi with ⟨_, rfl⟩ | ⟨_, rest, _, ha⟩ | ⟨_, left, _, rfl⟩ | ⟨_, _, rfl⟩
  · exact h
  · exact stateInv_hostAccess (s := { s with program := rest }) { h with } ha
  · exact stateInv_noteRead (s := { s with program := left }) { h with } _ _
  · exact stateInv_applyReset _

/-! ### The obligation -/

/-- Settles O53: the engine step and each input keep the invariant. -/
theorem stepKeepsInvariant : Obligations.StepKeepsInvariant := by
  intro s t h hstep
  rcases due_or_not s with ⟨hb, hd⟩ | hn
  · exact stateInv_engineStep h (step_due hb hd ▸ hstep)
  · exact stateInv_inputStep (stateInv_tick h) (step_not_due hn ▸ hstep)

end Sys2Proof.Machine
end

section
/-!
PROOFS. A host that keeps the bus rules (20_memory.md R82, 70_reset_and_hazards.md R335): its window, its next access,
and that the step from a safe state completes in a safe state.
-/

namespace Sys2Proof.Machine

variable {s : State}

/-! ### The discipline, input by input -/

theorem disciplined_wait (w : Bool) (rest : List Input) :
    disciplined w (.wait :: rest) = disciplined false rest := by
  cases w <;> rfl

theorem disciplined_reset (w : Bool) (rest : List Input) :
    disciplined w (.reset :: rest) = disciplined false rest := by
  cases w <;> rfl

/-- The next access is legal and keeps to the window, which stays open, or which a CMD write opens. -/
theorem disciplined_access {w : Bool} {a : Access} {rest : List Input}
    (h : disciplined w (.access a :: rest) = true) :
    legalAccess a.off a.width = true ∧ (w = true → a = statusRead) ∧
      disciplined (w || isCmdWrite a) rest = true := by
  cases w with
  | true =>
    simp only [disciplined, Bool.and_eq_true, beq_iff_eq] at h
    obtain ⟨rfl, hrest⟩ := h
    exact ⟨by decide, fun _ => rfl, hrest⟩
  | false =>
    simp only [disciplined, Bool.and_eq_true] at h
    exact ⟨h.1, fun hw => absurd hw Bool.false_ne_true, h.2⟩

/-- A host that keeps the rules of a window keeps those of one that is open less often. -/
theorem disciplined_of_imp {w w' : Bool} {p : List Input} (hww : w' = true → w = true)
    (h : disciplined w p = true) : disciplined w' p = true := by
  cases w with
  | true =>
    cases w' with
    | true => exact h
    | false => exact disciplined_mono h
  | false => rwa [Bool.eq_false_iff.2 fun hw' => Bool.false_ne_true (hww hw')]

/-! ### One step of a safe state -/

/-- A pending command's step leaves the window open: in it the host reads STATUS only. -/
theorem engineStep_safe (h : SafeState s) (hb : s.status.busy = true) :
    ∃ t, engineStep s = .next t ∧ SafeState t := by
  obtain ⟨hinv, hdisc⟩ := h
  obtain ⟨t, ht⟩ := engineStep_completes hinv
  obtain ⟨hprogram, _⟩ := engineStep_sameOutside ht
  refine ⟨t, ht, stateInv_engineStep hinv ht, ?_⟩
  rw [hprogram]
  exact disciplined_of_imp (fun _ => by simp [hazardWindow, hb]) hdisc

theorem hostAccess_safe {a : Access} {rest : List Input} (hinv : StateInv s) (hp : s.program = rest)
    (hdisc : disciplined (hazardWindow s) (.access a :: rest) = true) :
    ∃ t, hostAccess a s = .next t ∧ SafeState t := by
  obtain ⟨hlegal, hwindow, hrest⟩ := disciplined_access hdisc
  obtain ⟨t, ht⟩ := hostAccess_completes hlegal hwindow
  refine ⟨t, ht, stateInv_hostAccess hinv ht, ?_⟩
  rw [hostAccess_program ht, hp]
  exact disciplined_of_imp (fun hw => Bool.or_eq_true_iff.2 (hazardWindow_of_hostAccess ht hw)) hrest

/-- `wait` either stays in place, or reads STATUS with BUSY = 0 and so closes the window. -/
theorem inputStep_wait_safe {rest : List Input} (hinv : StateInv s) (hp : s.program = .wait :: rest)
    (hdisc : disciplined (hazardWindow s) (.wait :: rest) = true) :
    ∃ t, inputStep s = .next t ∧ SafeState t := by
  rw [disciplined_wait] at hdisc
  cases hb : s.status.busy with
  | true =>
    refine ⟨_, inputStep_wait_busy hp hb, stateInv_noteRead hinv _ _, ?_⟩
    rw [noteRead_program, hp, disciplined_wait]
    exact hdisc
  | false =>
    refine ⟨_, inputStep_wait_idle hp hb, stateInv_noteRead (s := { s with program := rest }) { hinv with } _ _, ?_⟩
    have hclosed :
        hazardWindow (noteRead statusRead (.word (statusWord s.status)) { s with program := rest }) = false := by
      simp [hazardWindow, hb]
    rw [hclosed]
    exact hdisc

theorem inputStep_safe (h : SafeState s) : ∃ t, inputStep s = .next t ∧ SafeState t := by
  obtain ⟨hinv, hdisc⟩ := id h
  cases hp : s.program with
  | nil => exact ⟨s, inputStep_nil hp, h⟩
  | cons i rest =>
    rw [hp] at hdisc
    cases i with
    | access a =>
      rw [inputStep_access hp]
      exact hostAccess_safe (s := { s with program := rest }) { hinv with } rfl hdisc
    | wait => exact inputStep_wait_safe hinv hp hdisc
    | reset =>
      refine ⟨_, inputStep_reset hp, stateInv_applyReset _, ?_⟩
      rw [disciplined_reset] at hdisc
      exact hdisc

theorem safeState_tick (h : SafeState s) : SafeState (tick s) := by
  obtain ⟨hinv, hdisc⟩ := h
  refine ⟨stateInv_tick hinv, ?_⟩
  rwa [hazardWindow, tick_status, tick_awaiting, tick_program]

/-! ### The obligation -/

/-- Settles O54: a due engine step completes, and so does the next input of a host that keeps the rules. -/
theorem disciplinedHostNeverFaults : Obligations.DisciplinedHostNeverFaults := by
  intro s h
  rcases due_or_not s with ⟨hb, hd⟩ | hn
  · rw [step_due hb hd]
    exact engineStep_safe h hb
  · rw [step_not_due hn]
    exact inputStep_safe (safeState_tick h)

end Sys2Proof.Machine
end

section
/-!
PROOFS. Reset, completion and what runs without the host (70_reset_and_hazards.md R320, R322, R337), STATUS from one CMD
write to the next (10_state.md R35), and the draw counter over a step (42_decode.md R240, log 4).
-/

namespace Sys2Proof.Machine

/-! ### Reset (R320) -/

/-- Settles O50: the fields of the reset state. -/
theorem resetValues : Obligations.ResetValues := by
  unfold Obligations.ResetValues
  exact ⟨rfl, rfl, rfl, rfl, rfl, rfl, rfl, rfl, rfl, rfl, rfl, rfl, rfl, rfl, rfl, rfl⟩

/-- Settles O51: the reset input is the next event, and the contents of CMDL and the buffers are those of a new
epoch. -/
theorem resetInputRestores : Obligations.ResetInputRestores := by
  intro s rest hp hn
  have hstep : step s = .next (applyReset { tick s with program := rest }) := by
    rw [step_not_due hn, inputStep_reset (rest := rest) ((tick_program s).trans hp)]
  refine ⟨_, hstep, ?fields, s.epoch + 1, ?cmdl, fun i => ⟨?tx, ?rx⟩⟩
  case fields => apply State.ext <;> simp [State.reset, Status.reset]
  case cmdl => simp
  case tx => simp [txByte, State.reset, memLookup]
  case rx => simp [rxByte, State.reset, memLookup]

/-! ### Completion (R337) -/

/-- A host that waits for a pending command that is not due lowers its latency, and nothing else that matters here. -/
theorem step_wait_pending {s : State} {rest : List Input} (hp : s.program = .wait :: rest)
    (hb : s.status.busy = true) (hd : 0 < s.delay) :
    step s = .next (noteRead statusRead (.word (statusWord s.status)) (tick s)) := by
  have hwait := inputStep_wait_busy ((tick_program s).trans hp) ((congrArg Status.busy (tick_status s)).trans hb)
  rw [step_not_due (.inr hd), hwait, tick_status]

theorem run_to_completion {rest : List Input} : ∀ (n : Nat) {s : State}, s.delay = n → StateInv s →
    s.status.busy = true → s.program = .wait :: rest →
      ∃ t, Host.Core.run core (n + 1) s = .next t ∧ t.status.busy = false ∧ t.status.done = true
  | 0, s, hd, hinv, hb, _ => by
    obtain ⟨t, ht⟩ := engineStep_completes hinv
    obtain ⟨hbusy, hdone, _⟩ := statusEnded_fields (engineStep_statusEnded ht)
    exact ⟨t, run_succ ((step_due hb hd).trans ht), hbusy, hdone⟩
  | n + 1, s, hd, hinv, hb, hp => by
    have hstep := step_wait_pending hp hb (by omega)
    rw [run_succ hstep]
    refine run_to_completion (rest := rest) n ?delay (stepKeepsInvariant s _ hinv hstep) ?busy ?program
    case delay => rw [noteRead_delay, tick_delay hb, hd, Nat.add_sub_cancel]
    case busy => rw [noteRead_status, tick_status, hb]
    case program => rw [noteRead_program, tick_program, hp]

/-- Settles O55: by induction on the latency left, each step of `wait` lowers it by one, and at 0 the engine step is
due. -/
theorem commandsComplete : Obligations.CommandsComplete :=
  fun s _ hinv hb hp => run_to_completion s.delay rfl hinv hb hp

/-! ### STATUS over a step that is no engine step (R322, 10_state.md R35) -/

/-- An input that is no reset changes STATUS only as a CMD write. -/
theorem inputStep_status_or_cmd {s t : State} (h : inputStep s = .next t)
    (hreset : ∀ rest, s.program ≠ .reset :: rest) :
    t.status = s.status ∨
      ∃ w rest, s.program = .access (.write (regOffset .cmd) (.word w)) :: rest ∧ t.cmdl = w := by
  rcases inputStep_cases h with ⟨_, rfl⟩ | ⟨_, rest, hp, ha⟩ | ⟨_, _, _, rfl⟩ | ⟨rest, hp, _⟩
  · exact .inl rfl
  · rcases hostAccess_status_or_cmd ha with hst | ⟨w, rfl, rfl⟩
    · exact .inl hst
    · exact .inr ⟨w, rest, hp, launch_cmdl _ w⟩
  · exact .inl rfl
  · exact absurd hp (hreset rest)

/-- Settles O56: with nothing to do a step is the identity; the reset input leaves BUSY 0, and so does every input but a
CMD write. -/
theorem nothingRunsByItself : Obligations.NothingRunsByItself := by
  constructor
  · intro s hb hp
    rw [step_not_due (.inl hb), tick_idle hb, inputStep_nil hp]
  · intro s t hb hstep hbusy
    rw [step_not_due (.inl hb), tick_idle hb] at hstep
    by_cases hreset : ∃ rest, s.program = .reset :: rest
    · obtain ⟨rest, hp⟩ := hreset
      rw [inputStep_reset hp] at hstep
      cases hstep
      exact absurd hbusy Bool.false_ne_true
    · rcases inputStep_status_or_cmd hstep (not_exists.1 hreset) with hst | hcmd
      · rw [hst, hb] at hbusy
        exact absurd hbusy Bool.false_ne_true
      · exact hcmd

/-- Settles O57: of the inputs only a reset and a CMD write change STATUS. -/
theorem statusPersists : Obligations.StatusPersists := by
  intro s t hstep hn hreset hcmd
  rw [step_not_due hn] at hstep
  rw [← tick_program] at hreset hcmd
  rcases inputStep_status_or_cmd hstep hreset with hst | ⟨w, rest, hp, _⟩
  · exact hst.trans (tick_status s)
  · exact absurd hp (hcmd w rest)

/-! ### The draw counter (42_decode.md R240, log 4) -/

theorem launch_draws_le (w : Word) (s : State) : s.draws ≤ (launch w s).draws := by
  unfold launch
  split
  · exact Nat.le_refl _
  · exact Nat.le_add_right _ _

/-- Of the commands only DECODE moves the draw counter. -/
theorem exec_draws_le {i : Instr} {s t : State} (h : exec i s = .next t) : s.draws ≤ t.draws := by
  by_cases hi : i = .decode
  · obtain rfl : decodeDatagram s = t := by subst hi; cases h; rfl
    rw [decodeDatagram_draws]
    split <;> omega
  · obtain ⟨_, _, _, _, hdecoded⟩ := resultsChangeUnderTheirCommands i s t h
    exact (hdecoded hi).2.ge

theorem hostAccess_draws_le {a : Access} {s t : State} (h : hostAccess a s = .next t) : s.draws ≤ t.draws := by
  rcases hostAccess_cases h with ⟨_, rfl⟩ | ⟨_, _, _, rfl⟩ | ⟨_, _, v, _, rfl⟩ |
    ⟨_, _, _, ⟨_, _, _, rfl⟩ | ⟨_, _, _, rfl⟩ | ⟨_, _, _, _, _, _, rfl⟩⟩
  case inr.inr.inl => exact launch_draws_le v s
  all_goals exact Nat.le_refl _

theorem inputStep_draws_le {s t : State} (h : inputStep s = .next t) : s.draws ≤ t.draws := by
  rcases inputStep_cases h with ⟨_, rfl⟩ | ⟨_, _, _, ha⟩ | ⟨_, _, _, rfl⟩ | ⟨_, _, rfl⟩
  case inr.inl => exact (hostAccess_draws_le ha :)
  all_goals exact Nat.le_refl _

theorem step_draws_le {s t : State} (h : step s = .next t) : s.draws ≤ t.draws := by
  rcases due_or_not s with ⟨hb, hd⟩ | hn
  · rw [step_due hb hd] at h
    rcases engineStep_cases h with ⟨_, _, hi⟩ | rfl
    · exact exec_draws_le hi
    · exact Nat.le_refl _
  · rw [step_not_due hn] at h
    exact (tick_draws s).ge.trans (inputStep_draws_le h)

/-- The number of each byte a DECODE may draw: timestamp bytes 0 to 7, TTL as 8, IHL as 9, by the number of its read. -/
def drawNumber (s : State) (k : Nat) : Nat :=
  if k < 8 then s.draws + (8 + k) else if k = 8 then s.draws + 7 else s.draws

theorem drawNumber_timestamp (s : State) {k : Nat} (h : k < 8) : drawNumber s k = s.draws + (8 + k) := if_pos h

theorem drawNumber_injective (s : State) {j k : Nat} (hj : j < 10) (hk : k < 10)
    (h : drawNumber s j = drawNumber s k) : j = k := by
  unfold drawNumber at h
  split_ifs at h <;> omega

theorem drawNumber_bounds (s : State) (k : Nat) : s.draws ≤ drawNumber s k ∧ drawNumber s k < s.draws + 16 := by
  unfold drawNumber
  split_ifs <;> omega

/-- A DECODE that reads the buffer and ends without an error, or with ECHO, has accepted the datagram. -/
theorem decodeDatagram_eq_acceptedState {s : State} (hr : s.rxLen.toNat ≤ s.cfg.rxbuf)
    (h : (decodeDatagram s).status.err = false ∨ (decodeDatagram s).rxTc.echo = true) :
    decodeDatagram s = acceptedState s := by
  by_cases h8 : headerLen (parsedIhl s) + 8 ≤ s.rxLen.toNat
  · exact decode_accepts hr h8
  · rw [decode_rejects hr (Nat.not_le.1 h8)] at h
    rcases h with herr | hecho
    · exact absurd herr.symm Bool.false_ne_true
    · exact absurd hecho Bool.false_ne_true

/-- An accepted echo reply's timestamp byte at or past RX_LEN is its draw. -/
theorem acceptedState_tsByte_drawn {s : State} (hecho : (acceptedState s).rxTc.echo = true) {k : Nat} (hk : k < 8)
    (hpast : s.rxLen.toNat ≤ headerLen (parsedIhl s) + 8 + k) :
    tsByte (acceptedState s).rxTsHi (acceptedState s).rxTsLo k = Config.draw8 (drawNumber s k) := by
  rw [acceptedState_tsByte hecho hk, rtsByte, rxPeek_drawn _ hpast, drawNumber_timestamp s hk]

/-- Settles O58: the reads of one DECODE have the numbers 0 to 15 past the counter, each byte its own. -/
theorem drawsAreFresh : Obligations.DrawsAreFresh := by
  refine ⟨fun s hr => ⟨decodeDatagram s, drawNumber s, exec_decode s, fun j k => drawNumber_injective s,
    fun k _ => ?fresh, fun hzero => ?ihl, fun hok hlen => ?ttl, fun hecho k hk hpast => ?timestamp⟩,
    fun s t => step_draws_le⟩
  case fresh =>
    rw [decodeDatagram_draws, if_neg (Nat.not_lt.2 hr)]
    exact drawNumber_bounds s k
  case ihl =>
    obtain ⟨_, hip⟩ := decodeDatagram_rxIp hr
    rw [hip]
    exact congrArg (BitVec.extractLsb' 0 4) (rxPeek_drawn 0 hzero.le)
  case ttl =>
    rw [decodeDatagram_eq_acceptedState hr (.inl hok)]
    exact rxPeek_drawn 7 hlen
  case timestamp =>
    have haccepted := decodeDatagram_eq_acceptedState hr (.inr hecho)
    rw [haccepted] at hecho hpast ⊢
    exact acceptedState_tsByte_drawn hecho hk (hpast.trans_eq (congrArg (· + 8 + k) (parsedIp_hlen_toNat _ _)))

end Sys2Proof.Machine
end

section
/-!
PROOFS. The register map (10_state.md R33 to R51): the fields of the words it shows, and what a word access reads and
writes.
-/

namespace Sys2Proof.Machine

/-! ### A 16-bit field in a word -/

theorem setWidth_half (v : Half) : v.setWidth 32 = 0#16 ++ v := by
  rw [BitVec.setWidth_eq_append (by decide)]
  rfl

/-- A word cut to its used 16 bits and zero-extended has its unused bits cleared. -/
theorem setWidth_setWidth_half (v : Word) : (v.setWidth 16).setWidth 32 = v &&& 0x0000FFFF#32 := by
  apply BitVec.eq_of_toNat_eq
  have hand : v.toNat &&& 65535 % 2 ^ 32 = v.toNat % 65536 := Nat.and_two_pow_sub_one_eq_mod _ 16
  simp only [BitVec.toNat_and, BitVec.toNat_setWidth, BitVec.toNat_ofNat, hand]
  omega

/-! ### Words made of fields -/

/-- A mask clears an appended word when it clears both parts. -/
theorem and_append_eq_zero {v w : Nat} {x m : BitVec v} {y n : BitVec w} (hx : x &&& m = 0#v) (hy : y &&& n = 0#w) :
    (x ++ y) &&& (m ++ n) = 0#(v + w) := by
  rw [BitVec.and_append, hx, hy, BitVec.zero_append_zero]

theorem statusWord_busy (t : Status) : (statusWord t).getLsbD 0 = t.busy := by
  simp only [statusWord, BitVec.getLsbD_append]; simp

theorem statusWord_done (t : Status) : (statusWord t).getLsbD 1 = t.done := by
  simp only [statusWord, BitVec.getLsbD_append]; simp

theorem statusWord_err (t : Status) : (statusWord t).getLsbD 2 = t.err := by
  simp only [statusWord, BitVec.getLsbD_append]; simp

theorem statusWord_ecode (t : Status) : (statusWord t).extractLsb' 4 4 = ecodeBits t.ecode := by
  simp only [statusWord, BitVec.extractLsb'_append_eq_of_le, BitVec.extractLsb'_append_eq_right, Nat.reduceLeDiff,
    Nat.reduceSub]

theorem statusWord_reserved (t : Status) : statusWord t &&& 0xFFFFFF08#32 = 0#32 := by
  have hmask : 0xFFFFFF08#32 = 0xFFFFFF#24 ++ 0#4 ++ 1#1 ++ 0#1 ++ 0#1 ++ 0#1 := by decide
  rw [statusWord, hmask]
  repeat' apply and_append_eq_zero
  all_goals simp only [BitVec.zero_and, BitVec.and_zero]

theorem rxIpWord_hlen (r : RxIp) : (rxIpWord r).extractLsb' 0 8 = r.hlen := BitVec.extractLsb'_append_eq_right

theorem rxIpWord_ihl (r : RxIp) : (rxIpWord r).extractLsb' 8 4 = r.ihl := by
  simp only [rxIpWord, BitVec.extractLsb'_append_eq_of_le, BitVec.extractLsb'_append_eq_right, Nat.reduceLeDiff,
    Nat.reduceSub]

theorem rxIpWord_ttl (r : RxIp) : (rxIpWord r).extractLsb' 16 8 = r.ttl := by
  simp only [rxIpWord, BitVec.extractLsb'_append_eq_of_le, BitVec.extractLsb'_append_eq_right, Nat.reduceLeDiff,
    Nat.reduceSub]

theorem rxIpWord_reserved (r : RxIp) : rxIpWord r &&& 0xFF00F000#32 = 0#32 := by
  have hmask : 0xFF00F000#32 = 0xFF#8 ++ 0#8 ++ 0xF#4 ++ 0#4 ++ 0#8 := by decide
  rw [rxIpWord, hmask]
  repeat' apply and_append_eq_zero
  all_goals simp only [BitVec.zero_and, BitVec.and_zero]

theorem rxTcWord_code (r : RxTc) : (rxTcWord r).extractLsb' 0 8 = r.code := BitVec.extractLsb'_append_eq_right

theorem rxTcWord_typ (r : RxTc) : (rxTcWord r).extractLsb' 8 8 = r.typ := by
  simp only [rxTcWord, BitVec.extractLsb'_append_eq_of_le, BitVec.extractLsb'_append_eq_right, Nat.reduceLeDiff,
    Nat.reduceSub]

theorem rxTcWord_echo (r : RxTc) : (rxTcWord r).getLsbD 16 = r.echo := by
  simp only [rxTcWord, BitVec.getLsbD_append]; simp

theorem rxTcWord_tsv (r : RxTc) : (rxTcWord r).getLsbD 17 = r.tsv := by
  simp only [rxTcWord, BitVec.getLsbD_append]; simp

theorem rxTcWord_reserved (r : RxTc) : rxTcWord r &&& 0xFFFC0000#32 = 0#32 := by
  have hmask : 0xFFFC0000#32 = 0x3FFF#14 ++ 0#1 ++ 0#1 ++ 0#8 ++ 0#8 := by decide
  rw [rxTcWord, hmask]
  repeat' apply and_append_eq_zero
  all_goals simp only [BitVec.zero_and, BitVec.and_zero]

/-! ### Reads -/

/-- A read of a register that holds a 16-bit field. -/
theorem memRead_half {s : State} {r : Reg} {v : Half} (h : regRead s r = v.setWidth 32) :
    memRead s (regOffset r) .word = .ok (.word (0#16 ++ v)) := by
  rw [memRead_regOffset, h, setWidth_half]

/-- Settles O39: each offset is its register's, and the fields of the three composed words are read back. -/
theorem registerReads : Obligations.RegisterReads := by
  intro s
  have hread := memRead_regOffset s
  refine ⟨hread .cmd, ⟨_, hread .status, statusWord_busy _, statusWord_done _, statusWord_err _, ?ecode,
      statusWord_reserved _⟩, memRead_half (r := .id) rfl, memRead_half (r := .seq) rfl, memRead_half (r := .plen) rfl,
    hread .tsHi, hread .tsLo, memRead_half (r := .txLen) rfl, memRead_half (r := .csumOff) rfl,
    memRead_half (r := .csumRes) rfl, memRead_half (r := .rxLen) rfl,
    ⟨_, hread .rxIp, rxIpWord_hlen _, rxIpWord_ihl _, rxIpWord_ttl _, rxIpWord_reserved _⟩,
    ⟨_, hread .rxTc, rxTcWord_code _, rxTcWord_typ _, rxTcWord_echo _, rxTcWord_tsv _, rxTcWord_reserved _⟩,
    hread .rxIdseq, memRead_half (r := .rxIcmplen) rfl, hread .rxTsHi, hread .rxTsLo⟩
  exact (statusWord_ecode _).trans (by cases s.status.ecode <;> rfl)

/-! ### Writes -/

/-- The registers a write leaves alone: CMD's write launches, the six read-write ones store (R51). -/
def readOnlyRegs : List Reg :=
  [.status, .plen, .txLen, .csumRes, .rxIp, .rxTc, .rxIdseq, .rxIcmplen, .rxTsHi, .rxTsLo, .cfgMaxdg, .cfgRxbuf]

theorem regWrite_readOnly {r : Reg} (hr : r ∈ readOnlyRegs) (v : Word) (s : State) : regWrite v s r = s := by
  revert r
  simp [readOnlyRegs, regWrite]

/-- Settles O42: each offset is its register's, whose write stores the used bits, or nothing where it is read-only. -/
theorem registerWrites : Obligations.RegisterWrites := by
  intro s v
  have hwrite := fun r => memWrite_regOffset s r v
  refine ⟨fun off hoff => ?readOnly, hwrite .id, hwrite .seq, hwrite .tsHi, hwrite .tsLo, hwrite .csumOff,
    hwrite .rxLen⟩
  obtain ⟨r, hr, rfl⟩ := List.mem_map.1 (show off ∈ readOnlyRegs.map regOffset from hoff)
  rw [hwrite r, regWrite_readOnly hr]

/-- After a word write at a register's offset, the word read there is the register's. -/
theorem memRead_after_memWrite {s : State} {r : Reg} {v u : Word} (h : regRead (regWrite v s r) r = u) :
    ∃ t, memWrite s (regOffset r) (.word v) = .ok t ∧ memRead t (regOffset r) .word = .ok (.word u) :=
  ⟨_, memWrite_regOffset s r v, by rw [memRead_regOffset, h]⟩

/-- Settles O43: a 16-bit register reads the stored bits zero-extended, a 32-bit one the whole word. -/
theorem registersReadBack : Obligations.RegistersReadBack := by
  intro s v
  refine ⟨fun off hoff => ?half, fun off hoff => ?word⟩
  case half =>
    obtain ⟨r, hr, rfl⟩ := List.mem_map.1 (show off ∈ [Reg.id, .seq, .csumOff, .rxLen].map regOffset from hoff)
    have hback : regRead (regWrite v s r) r = v &&& 0x0000FFFF#32 := by
      rw [← setWidth_setWidth_half]
      revert r
      simp [regRead, regWrite]
    exact memRead_after_memWrite hback
  case word =>
    obtain ⟨r, hr, rfl⟩ := List.mem_map.1 (show off ∈ [Reg.tsHi, .tsLo].map regOffset from hoff)
    have hback : regRead (regWrite v s r) r = v := by
      revert r
      simp [regRead, regWrite]
    exact memRead_after_memWrite hback

end Sys2Proof.Machine
end

section
/-!
PROOFS. Host accesses (20_memory.md R80 to R84) and the command window (10_state.md R34, 70_reset_and_hazards.md R335).
-/

namespace Sys2Proof.Machine

/-! ### Bus addresses (R80) -/

theorem base_eq : Config.base = Config.baseSlot * 0x40000 := by
  unfold Config.base
  rfl

theorem base_aligned : Config.base % 0x40000 = 0 := by
  rw [base_eq, Nat.mul_mod_left]

theorem offset_lt (off : Offset) : off.toNat < 0x40000 := off.isLt

theorem offsetAt_busAddress (off : Offset) : offsetAt (busAddress off) = some off := by
  unfold offsetAt busAddress
  generalize Config.base = base
  rw [if_pos ⟨Nat.le_add_right _ _, Nat.add_lt_add_left (offset_lt off) _⟩, Nat.add_sub_cancel_left,
    BitVec.ofNat_toNat, BitVec.setWidth_eq]

theorem eq_busAddress_of_offsetAt {a : Nat} {off : Offset} (h : offsetAt a = some off) : a = busAddress off := by
  unfold offsetAt at h
  unfold busAddress
  generalize Config.base = base at h ⊢
  split at h
  next hin =>
    obtain ⟨hlo, hhi⟩ := hin
    obtain rfl : BitVec.ofNat 18 (a - base) = off := Option.some.inj h
    rw [BitVec.toNat_ofNat]
    omega
  next => cases h

/-- Settles O48: an offset is less than 0x40000, so it and its bus address determine each other. -/
theorem busAddressing : Obligations.BusAddressing :=
  ⟨base_aligned, offsetAt_busAddress, fun _ _ => eq_busAddress_of_offsetAt⟩

/-! ### The width classes (R82, R83) -/

theorem legalAccess_broken {off : Offset} {w : Width}
    (h : (off.toNat < 0x10000 ∧ (w ≠ .word ∨ off.toNat % 4 ≠ 0)) ∨ (0x10000 ≤ off.toNat ∧ w ≠ .byte)) :
    legalAccess off w = false := by
  rcases h with ⟨hlo, hbroken⟩ | ⟨hhi, hw⟩
  · simpa [legalAccess, wordClass_of_lt hlo, imp_iff_not_or] using hbroken
  · simpa [legalAccess, wordClass_of_ge hhi] using hw

theorem memRead_illegal {s : State} {off : Offset} {w : Width} (h : legalAccess off w = false) :
    memRead s off w = .error .busError :=
  if_neg (Bool.eq_false_iff.1 h)

theorem memWrite_illegal {s : State} {off : Offset} {d : BusData} (h : legalAccess off d.width = false) :
    memWrite s off d = .error .busError :=
  if_neg (Bool.eq_false_iff.1 h)

/-- Settles O37: such an access is not legal, which both primitives and the host access test first. -/
theorem brokenAccessesAreBusErrors : Obligations.BrokenAccessesAreBusErrors := by
  intro s a h
  have hillegal := legalAccess_broken h
  refine ⟨hostAccess_illegal hillegal, ?_⟩
  cases a with
  | read off w => exact memRead_illegal hillegal
  | write off d => exact memWrite_illegal hillegal

/-! ### Accesses outside the window (R84) -/

theorem hazardWindow_eq_false {s : State} (hb : s.status.busy = false) (haw : s.awaiting = false) :
    hazardWindow s = false := by
  rw [hazardWindow, hb, haw]; rfl

/-- Outside the window a legal read only records the data it returns. -/
theorem hostAccess_read_quiet {s : State} {off : Offset} {w : Width} {d : BusData} (hb : s.status.busy = false)
    (haw : s.awaiting = false) (hl : legalAccess off w = true) (hd : memRead s off w = .ok d) :
    hostAccess (.read off w) s = .next { s with reads := d :: s.reads } := by
  rw [memRead_legal hl] at hd
  cases hd
  rw [hostAccess_read hl (hazardWindow_eq_false hb haw), noteRead_quiet _ _ haw]

/-- Settles O45: the record of reads is no input of a read. -/
theorem readsHaveNoSideEffect : Obligations.ReadsHaveNoSideEffect := fun _ _ _ hl hb haw =>
  ⟨_, memRead_legal hl, hostAccess_read_quiet hb haw hl (memRead_legal hl), memRead_legal hl⟩

/-- Settles O46: a legal write has its MemWrite, and outside the window the host access is just that. -/
theorem legalWritesComplete : Obligations.LegalWritesComplete := fun _ _ _ hl hb haw =>
  ⟨_, if_pos hl, hostAccess_write (hazardWindow_eq_false hb haw) (if_pos hl)⟩

/-! ### The command window (R34, R335) -/

/-- Settles O47: outside the window a CMD write is `launch`; while BUSY it is a legal access other than the STATUS
read. -/
theorem cmdWriteLatches : Obligations.CmdWriteLatches := by
  intro s w
  refine ⟨fun hb haw => ?quiet, fun hb => ?busy⟩
  case quiet =>
    refine ⟨launch w s, hostAccess_write (hazardWindow_eq_false hb haw) (memWrite_regOffset s .cmd w), launch_cmdl s w,
      launch_status s w, launch_awaiting s w, ?frame,
      hostAccess_read_quiet hb haw (by decide) (memRead_regOffset s .cmd)⟩
    apply State.ext <;> simp
  case busy => exact hostAccess_hazard (by decide : legalAccess 0x000 .word = true) (by simp [hazardWindow, hb]) nofun

/-- Settles O38: the window refuses every legal access but the STATUS read, which returns STATUS as it stands. -/
theorem commandWindowAllowsStatusOnly : Obligations.CommandWindowAllowsStatusOnly := by
  refine ⟨fun s a hw hl ha => ?hazard, fun s hinv hb => ?pending, fun s hinv hb haw => ?performed⟩
  case hazard => exact hostAccess_hazard hl (Bool.or_eq_true_iff.2 hw) ha
  case pending =>
    obtain ⟨hstatus, _⟩ := hinv.busy_pending hb
    have hword : statusWord s.status = 0x00000001 := by rw [hstatus]; decide
    refine (hostAccess_status s).trans (congrArg Host.Outcome.next ?_)
    rw [hword]
    apply State.ext <;> simp [hb]
  case performed =>
    have hdone : s.status.done = true :=
      (hinv.window_status haw).resolve_left (Bool.eq_false_iff.1 hb)
    refine ⟨statusWord s.status, (statusWord_busy _).trans hb, (statusWord_done _).trans hdone,
      (hostAccess_status s).trans (congrArg Host.Outcome.next ?_)⟩
    apply State.ext <;> simp [hb]

end Sys2Proof.Machine
end
